-- ==== Sys2Proof/Word.lean ====
section
/-! DEFINITION. Words and register names of the modular inverse engine (rules R8, R21). -/
namespace Sys2Proof

/-- One 32-bit word of a stream: a command word, a payload word, a response word or a limb (rule R8). -/
abbrev Word := BitVec 32

/-- The name of a general register, `b0` to `b7` (rule R21). -/
abbrev Reg := Fin 8

end Sys2Proof
end

