-- ==== Sys2Proof/Config.lean ====
section
/-! DEFINITION. The parameters of rule R6: the two OPEN ones are data, the fixed ones are constants. -/
namespace Sys2Proof

/-- The two OPEN parameters of rule R6.
They are arguments of the model: the machine's state carries them in a field that nothing changes
(log entry 1), so a statement about every state holds for every legal value of both. -/
structure Params where
  /-- `KT_SIZE`, the number of key-table entries. -/
  ktSize  : Nat
  /-- `MAXBITS`, the largest bit length of a stored value; `none` is `∞`. -/
  maxBits : Option Nat
  deriving DecidableEq, Repr

namespace Config

/-- The legal range of `MAXBITS` (rule R6): an integer of at least 32, or `∞`. -/
def legalMaxBits : Option Nat → Bool
  | none   => true
  | some n => decide (32 ≤ n)

/-- The legal parameters (rule R6): `1 ≤ KT_SIZE ≤ 65536`, and `MAXBITS` at least 32 or `∞`. -/
def legal (p : Params) : Bool :=
  decide (1 ≤ p.ktSize) && decide (p.ktSize ≤ 65536) && legalMaxBits p.maxBits

/-- The parameters `State.reset` carries.
`MAXBITS = ∞` is the default of rule R6; `KT_SIZE = 65536` is a DESIGN CHOICE (log entry 2, unsafe). -/
def defaultParams : Params := { ktSize := 65536, maxBits := none }

/-- `MAX_XFER_LIMBS` (rule R6): the most limbs one `LDI` or `RDR` moves. -/
abbrev maxXferLimbs : Nat := 65535

end Config
end Sys2Proof
end

