-- ==== Sys2Proof/Syntax.lean ====
section
/-! DEFINITION. The sixteen commands of rule R64 as syntax. -/
namespace Sys2Proof

/-- The commands of rule R64, one constructor per row of the opcode table.
A command is a command word and, for `LDI` only, its payload words (rule R60). -/
inductive Instr where
  /-- `NOP` (rule R90). -/
  | nop
  /-- `LDS rd, #imm16` (rule R91). -/
  | lds (rd : Reg) (imm : BitVec 16)
  /-- `LDI rd, #L` with its `L` payload words, the least significant limb first (rule R92). -/
  | ldi (rd : Reg) (payload : List Word)
  /-- `MOV rd, ra` (rule R93). -/
  | mov (rd ra : Reg)
  /-- `RDR ra` (rule R94). -/
  | rdr (ra : Reg)
  /-- `KST ra, #idx` (rule R95). -/
  | kst (ra : Reg) (idx : BitVec 16)
  /-- `KLD rd, #idx` (rule R96). -/
  | kld (rd : Reg) (idx : BitVec 16)
  /-- `MVA rd` (rule R97). -/
  | mva (rd : Reg)
  /-- `GCD rd, ra, rb` (rule R101). -/
  | gcd (rd ra rb : Reg)
  /-- `INV rd, rw, rm` (rules R65, R107): `rw` is encoded in field `ra`, the modulus in field `rm`. -/
  | inv (rd rw rm : Reg)
  /-- `MULM rd, ra, rb, rm` (rule R122). -/
  | mulm (rd ra rb rm : Reg)
  /-- `ACLR` (rule R124). -/
  | aclr
  /-- `MACB #idx, #bit` (rule R125). -/
  | macb (idx : BitVec 16) (bit : Bool)
  /-- `RDS` (rule R140). -/
  | rds
  /-- `CLRF` (rule R141). -/
  | clrf
  /-- `RST` (rule R142). -/
  | rst
  deriving DecidableEq, Repr

end Sys2Proof
end

