-- ==== Sys2Proof/WellFormed.lean ====
section
/-! DEFINITION. Which instructions can be encoded at all. -/
namespace Sys2Proof

/-- The one bound the operand types do not carry: an `LDI` has at most `MAX_XFER_LIMBS` payload words, since its
length field is 16 bits wide (rules R6, R60).
Register names lie in `[0, 7]`, immediates in `[0, 65535]` and the bit of `MACB` in `[0, 1]` by their types
(rule R63). -/
def Instr.WellFormed : Instr → Bool
  | .nop           => true
  | .lds _ _       => true
  | .ldi _ payload => decide (payload.length ≤ Config.maxXferLimbs)
  | .mov _ _       => true
  | .rdr _         => true
  | .kst _ _       => true
  | .kld _ _       => true
  | .mva _         => true
  | .gcd _ _ _     => true
  | .inv _ _ _     => true
  | .mulm _ _ _ _  => true
  | .aclr          => true
  | .macb _ _      => true
  | .rds           => true
  | .clrf          => true
  | .rst           => true

end Sys2Proof
end

