-- ==== Sys2Proof/Decode.lean ====
section
/-! DEFINITION. Decoding command words and framing the command stream (rules R60 to R68), the encoder written from the
same formats, and the opcode table of rule R64. -/
namespace Sys2Proof

/-! ### Fields (rules R61, R62) -/

/-- `op`, bits 31:24. -/
def opField (w : Word) : BitVec 8 := w.extractLsb' 24 8
/-- `rd` of the R-format and `r` of the I-format, bits 23:20. -/
def rdField (w : Word) : BitVec 4 := w.extractLsb' 20 4
/-- `ra` of the R-format and `f` of the I-format, bits 19:16. -/
def raField (w : Word) : BitVec 4 := w.extractLsb' 16 4
/-- `rb` of the R-format, bits 15:12. -/
def rbField (w : Word) : BitVec 4 := w.extractLsb' 12 4
/-- `rm` of the R-format, bits 11:8. -/
def rmField (w : Word) : BitVec 4 := w.extractLsb' 8 4
/-- `z` of the R-format, bits 7:0. -/
def zField (w : Word) : BitVec 8 := w.extractLsb' 0 8
/-- `imm16` of the I-format, bits 15:0. -/
def immField (w : Word) : BitVec 16 := w.extractLsb' 0 16
/-- `f[3:1]`, bits 19:17. -/
def fHighField (w : Word) : BitVec 3 := w.extractLsb' 17 3
/-- `f[0]`, bit 16. -/
def bitField (w : Word) : Bool := w.getLsbD 16

/-! ### Decoding one word (rule R66) -/

/-- Why a word is `Illegal` (rule R66).
The engine does not tell these apart: every one of them raises `IllegalCmd` (rule R171). -/
inductive DecodeError where
  /-- `op` is none of the sixteen opcodes. -/
  | unassignedOpcode
  /-- A must-be-zero field is not zero. -/
  | reservedNotZero
  /-- A used register field is 8 or more. -/
  | noSuchRegister
  deriving DecidableEq, Repr

/-- What one command word says by itself: a whole command, or the head of an `LDI` with its limb count (rule R60). -/
inductive Head where
  | plain (i : Instr)
  | ldi (rd : Reg) (len : BitVec 16)
  deriving DecidableEq, Repr

/-- A must-be-zero condition in front of the rest of a decoding (rule R66). -/
def needZero (ok : Bool) (rest : Except DecodeError Head) : Except DecodeError Head :=
  if ok then rest else .error .reservedNotZero

/-- A used register field: the values 0 to 7 name a register, 8 to 15 make the word illegal (rule R63). -/
def withReg (field : BitVec 4) (rest : Reg → Except DecodeError Head) : Except DecodeError Head :=
  if h : field.toNat < 8 then rest ⟨field.toNat, h⟩ else .error .noSuchRegister

/-- A command with no operand: all 24 bits below the opcode are zero. -/
def decodeBare (w : Word) (i : Instr) : Except DecodeError Head :=
  needZero (rdField w == 0 && raField w == 0 && rbField w == 0 && rmField w == 0 && zField w == 0) (.ok (.plain i))

/-- The I-format with a register and an immediate: the whole flag field is zero (rule R62). -/
def decodeRegImm (w : Word) (k : Reg → BitVec 16 → Head) : Except DecodeError Head :=
  needZero (raField w == 0) (withReg (rdField w) fun r => .ok (k r (immField w)))

/-- Decode one word at a command position, total on all 2^32 words (rules R64, R66). -/
def decodeHead (w : Word) : Except DecodeError Head :=
  if opField w = 0x00#8 then decodeBare w .nop
  else if opField w = 0x01#8 then decodeRegImm w fun r imm => .plain (.lds r imm)
  else if opField w = 0x02#8 then decodeRegImm w fun r len => .ldi r len
  else if opField w = 0x03#8 then
    needZero (rbField w == 0 && rmField w == 0 && zField w == 0)
      (withReg (rdField w) fun rd => withReg (raField w) fun ra => .ok (.plain (.mov rd ra)))
  else if opField w = 0x04#8 then
    needZero (rdField w == 0 && rbField w == 0 && rmField w == 0 && zField w == 0)
      (withReg (raField w) fun ra => .ok (.plain (.rdr ra)))
  else if opField w = 0x05#8 then decodeRegImm w fun r idx => .plain (.kst r idx)
  else if opField w = 0x06#8 then decodeRegImm w fun r idx => .plain (.kld r idx)
  else if opField w = 0x07#8 then
    needZero (raField w == 0 && rbField w == 0 && rmField w == 0 && zField w == 0)
      (withReg (rdField w) fun rd => .ok (.plain (.mva rd)))
  else if opField w = 0x10#8 then
    needZero (rmField w == 0 && zField w == 0)
      (withReg (rdField w) fun rd => withReg (raField w) fun ra => withReg (rbField w) fun rb =>
        .ok (.plain (.gcd rd ra rb)))
  else if opField w = 0x11#8 then
    needZero (rbField w == 0 && zField w == 0)
      (withReg (rdField w) fun rd => withReg (raField w) fun rw => withReg (rmField w) fun rm =>
        .ok (.plain (.inv rd rw rm)))
  else if opField w = 0x12#8 then
    needZero (zField w == 0)
      (withReg (rdField w) fun rd => withReg (raField w) fun ra => withReg (rbField w) fun rb =>
        withReg (rmField w) fun rm => .ok (.plain (.mulm rd ra rb rm)))
  else if opField w = 0x18#8 then decodeBare w .aclr
  else if opField w = 0x19#8 then
    needZero (rdField w == 0 && fHighField w == 0) (.ok (.plain (.macb (immField w) (bitField w))))
  else if opField w = 0x20#8 then decodeBare w .rds
  else if opField w = 0x21#8 then decodeBare w .clrf
  else if opField w = 0x3F#8 then decodeBare w .rst
  else .error .unassignedOpcode

/-! ### Framing the command stream (rules R60, R68) -/

/-- What stands at the head of the command stream. -/
inductive Decoded where
  /-- The stream is empty (rule R69). -/
  | idle
  /-- A legal `LDI` whose payload has not all arrived (rule R68). -/
  | waiting (rd : Reg) (len : BitVec 16)
  /-- An `Illegal` word, taken alone, and the words behind it (rule R66). -/
  | illegal (why : DecodeError) (w : Word) (rest : List Word)
  /-- A complete command and the words behind it. -/
  | command (i : Instr) (rest : List Word)
  deriving DecidableEq, Repr

/-- The number of payload words a command word announces: `L` for a legal `LDI`, none for any other word, an `Illegal`
word with opcode `0x02` among them (rules R60, R68). -/
def payloadLength (w : Word) : Nat :=
  match decodeHead w with
  | .ok (.ldi _ len) => len.toNat
  | .ok (.plain _)   => 0
  | .error _         => 0

/-- Cut the next command off the stream, without looking inside payload words (rules R68, R69). -/
def decode : List Word → Decoded
  | []      => .idle
  | w :: ws =>
    match decodeHead w with
    | .error why         => .illegal why w ws
    | .ok (.plain i)     => .command i ws
    | .ok (.ldi rd len)  =>
      if ws.length < len.toNat then .waiting rd len
      else .command (.ldi rd (ws.take len.toNat)) (ws.drop len.toNat)

/-! ### Encoding (rules R61, R62, R64) -/

/-- The R-format word `{op, rd, ra, rb, rm, z}` with `z = 0` (rule R61). -/
def rFormat (op : BitVec 8) (rd ra rb rm : BitVec 4) : Word := op ++ rd ++ ra ++ rb ++ rm ++ 0#8

/-- The I-format word `{op, r, f, imm16}` (rule R62). -/
def iFormat (op : BitVec 8) (r f : BitVec 4) (imm : BitVec 16) : Word := op ++ r ++ f ++ imm

/-- The four bits that name a register (rule R63). -/
def regBits (r : Reg) : BitVec 4 := BitVec.ofNat 4 r.val

/-- The flag field of `MACB`: `f[0]` is the bit and `f[3:1]` is zero (rule R62). -/
def bitFlag (bit : Bool) : BitVec 4 := 0#3 ++ BitVec.ofBool bit

/-- The command word of an instruction (rule R64); of `LDI`, the word in front of its payload. -/
def encodeHead : Instr → Word
  | .nop             => rFormat 0x00#8 0 0 0 0
  | .lds rd imm      => iFormat 0x01#8 (regBits rd) 0 imm
  | .ldi rd payload  => iFormat 0x02#8 (regBits rd) 0 (BitVec.ofNat 16 payload.length)
  | .mov rd ra       => rFormat 0x03#8 (regBits rd) (regBits ra) 0 0
  | .rdr ra          => rFormat 0x04#8 0 (regBits ra) 0 0
  | .kst ra idx      => iFormat 0x05#8 (regBits ra) 0 idx
  | .kld rd idx      => iFormat 0x06#8 (regBits rd) 0 idx
  | .mva rd          => rFormat 0x07#8 (regBits rd) 0 0 0
  | .gcd rd ra rb    => rFormat 0x10#8 (regBits rd) (regBits ra) (regBits rb) 0
  | .inv rd rw rm    => rFormat 0x11#8 (regBits rd) (regBits rw) 0 (regBits rm)
  | .mulm rd ra rb rm => rFormat 0x12#8 (regBits rd) (regBits ra) (regBits rb) (regBits rm)
  | .aclr            => rFormat 0x18#8 0 0 0 0
  | .macb idx bit    => iFormat 0x19#8 0 (bitFlag bit) idx
  | .rds             => rFormat 0x20#8 0 0 0 0
  | .clrf            => rFormat 0x21#8 0 0 0 0
  | .rst             => rFormat 0x3F#8 0 0 0 0

/-- The payload words of an instruction: those of `LDI`, none for every other command (rule R60). -/
def payloadOf : Instr → List Word
  | .nop            => []
  | .lds _ _        => []
  | .ldi _ payload  => payload
  | .mov _ _        => []
  | .rdr _          => []
  | .kst _ _        => []
  | .kld _ _        => []
  | .mva _          => []
  | .gcd _ _ _      => []
  | .inv _ _ _      => []
  | .mulm _ _ _ _   => []
  | .aclr           => []
  | .macb _ _       => []
  | .rds            => []
  | .clrf           => []
  | .rst            => []

/-- The words of an instruction in the order the host appends them to `CQ` (rules R60, R78). -/
def encode (i : Instr) : List Word := encodeHead i :: payloadOf i

/-- The words of a list of commands, one command behind the other. -/
def encodeAll (is : List Instr) : List Word := is.flatMap encode

/-! ### The opcode table of rule R64 -/

/-- One row of rule R64. -/
structure OpRow where
  mnemonic : String
  pattern  : Word
  mask     : Word
  deriving DecidableEq, Repr

/-- A word is a row's command exactly when `(w AND mask) = match` (rule R64). -/
def OpRow.hits (row : OpRow) (w : Word) : Bool := w &&& row.mask == row.pattern

/-- The rows of rule R64 with their match and mask columns, transcribed; the decoder does not use them. -/
def opcodeTable : List OpRow :=
  [⟨"NOP",  0x00000000#32, 0xFFFFFFFF#32⟩, ⟨"LDS",  0x01000000#32, 0xFF8F0000#32⟩,
   ⟨"LDI",  0x02000000#32, 0xFF8F0000#32⟩, ⟨"MOV",  0x03000000#32, 0xFF88FFFF#32⟩,
   ⟨"RDR",  0x04000000#32, 0xFFF8FFFF#32⟩, ⟨"KST",  0x05000000#32, 0xFF8F0000#32⟩,
   ⟨"KLD",  0x06000000#32, 0xFF8F0000#32⟩, ⟨"MVA",  0x07000000#32, 0xFF8FFFFF#32⟩] ++
  [⟨"GCD",  0x10000000#32, 0xFF888FFF#32⟩, ⟨"INV",  0x11000000#32, 0xFF88F8FF#32⟩,
   ⟨"MULM", 0x12000000#32, 0xFF8888FF#32⟩, ⟨"ACLR", 0x18000000#32, 0xFFFFFFFF#32⟩,
   ⟨"MACB", 0x19000000#32, 0xFFFE0000#32⟩, ⟨"RDS",  0x20000000#32, 0xFFFFFFFF#32⟩,
   ⟨"CLRF", 0x21000000#32, 0xFFFFFFFF#32⟩, ⟨"RST",  0x3F000000#32, 0xFFFFFFFF#32⟩]

/-- The mnemonic of an instruction, as rule R64 spells it. -/
def mnemonicOf : Instr → String
  | .nop           => "NOP"
  | .lds _ _       => "LDS"
  | .ldi _ _       => "LDI"
  | .mov _ _       => "MOV"
  | .rdr _         => "RDR"
  | .kst _ _       => "KST"
  | .kld _ _       => "KLD"
  | .mva _         => "MVA"
  | .gcd _ _ _     => "GCD"
  | .inv _ _ _     => "INV"
  | .mulm _ _ _ _  => "MULM"
  | .aclr          => "ACLR"
  | .macb _ _      => "MACB"
  | .rds           => "RDS"
  | .clrf          => "CLRF"
  | .rst           => "RST"

/-- The mnemonic a decoded word stands for. -/
def headMnemonic : Head → String
  | .plain i  => mnemonicOf i
  | .ldi _ _  => "LDI"

/-! ### The host's reading of table words -/

/-- The words of the command whose bits are `w`, bit 0 the least significant bit of the first word and a later word's
bits counting on from it; every bit from `nbits` up is zero (so the payload of an `LDI` that has none there is zeros). -/
def tableWords (nbits w : Nat) : List Word :=
  let bits := w % 2 ^ nbits
  let head : Word := BitVec.ofNat 32 bits
  head :: (List.range (payloadLength head)).map fun k => BitVec.ofNat 32 (bits >>> (32 * (k + 1)))

/-- The instruction the decoder reads from those words; `none` where it refuses. -/
def decodeTableWord (nbits w : Nat) : Option Instr :=
  match decode (tableWords nbits w) with
  | .command i _   => some i
  | .idle          => none
  | .waiting _ _   => none
  | .illegal _ _ _ => none

end Sys2Proof
end

