-- ==== Sys2Proof/Machine/Arith.lean ====
section
/-! DEFINITION. The exact arithmetic of the engine: bit lengths and limbs (rule R9), the gcd (rule R100), the inverse
(rules R102 to R106), the modular product (rule R121) and the subset sum (rule R123). Nothing wraps (rule R120). -/
namespace Sys2Proof.Machine

/-! ### Sizes and limbs (rules R9, R43, R44) -/

/-- `bitlen(v)`: 0 for 0, else the `k` with `2^(k-1) ≤ v < 2^k`. -/
def bitlen (v : Nat) : Nat := if v = 0 then 0 else Nat.log2 v + 1

/-- `nlimbs(v) = ceil(bitlen(v) / 32)`. -/
def nlimbs (v : Nat) : Nat := (bitlen v + 31) / 32

/-- Limb `k` of `v`: bits `32k+31 : 32k`. -/
def limb (v k : Nat) : Word := BitVec.ofNat 32 (v / 2 ^ (32 * k))

/-- `limbs(v)`: the canonical limb sequence, the least significant limb first. -/
def limbs (v : Nat) : List Word := (List.range (nlimbs v)).map (limb v)

/-- `value(l)`: the number a limb sequence stands for, whatever its length and its words. -/
def limbsValue : List Word → Nat
  | []      => 0
  | l :: ls => l.toNat + 2 ^ 32 * limbsValue ls

/-! ### The greatest common divisor (rule R100) -/

/-- `gcd(a, b)`: the largest natural number dividing both, with `gcd(a, 0) = a` and `gcd(0, 0) = 0`. -/
def gcdOf (a b : Nat) : Nat := Nat.gcd a b

/-- The last nonzero term of the Euclidean remainder sequence of rule R100, in at most `fuel` steps. -/
def remainderSeq : Nat → Nat → Nat → Nat
  | 0,        a, _ => a
  | fuel + 1, a, b => if b = 0 then a else remainderSeq fuel b (a % b)

/-! ### The inverse (rules R102 to R106) -/

/-- `emod(z, m)`: the residue of `z` in `[0, m)` (rule R9). -/
def emod (z : Int) (m : Nat) : Nat := (z % (m : Int)).toNat

/-- The loop of rule R104 from remainders `r0`, `r1` and coefficients `t0`, `t1`: passes until `r1 = 1`, at most `fuel`
of them, and the coefficient `t1` it ends with. -/
def invLoop : Nat → Nat → Nat → Int → Int → Int
  | 0,        _,  _,  _,  t1 => t1
  | fuel + 1, r0, r1, t0, t1 =>
    if r1 = 1 then t1 else invLoop fuel r1 (r0 - r0 / r1 * r1) t1 (t0 - (r0 / r1 : Nat) * t1)

/-- The Bézout coefficient for `w` of the reference algorithm (rule R104).
`r1` starts at `w` and decreases on every pass (rule R108), so `w` passes are enough. -/
def bezoutCoef (m w : Nat) : Int := invLoop w m w 0 1

/-- `inv(m, w)` by the reference algorithm (rules R103, R104, R105).
It is defined on `m ≥ 2` with `gcd(m, w) = 1`; no command uses it elsewhere (log entry 7). -/
def inverse (m w : Nat) : Nat := emod (bezoutCoef m w) m

/-- The forward pass of the algorithm the scope note names (rule R106): the quotients of the remainder sequence down to
remainder 1. -/
def quotients : Nat → Nat → Nat → List Nat
  | 0,        _,  _  => []
  | fuel + 1, r0, r1 => if r1 = 1 then [] else r0 / r1 :: quotients fuel r1 (r0 % r1)

/-- The backward pass (rule R106): from the quotients, the pair `(u, t)` with `u·r0 + t·r1 = 1`. -/
def backSubstitute : List Nat → Int × Int
  | []      => (0, 1)
  | q :: qs => ((backSubstitute qs).2, (backSubstitute qs).1 - q * (backSubstitute qs).2)

/-- The inverse by forward gcd and back-substitution (rule R106, 90_conflicts.md C1). -/
def inverseByBackSubstitution (m w : Nat) : Nat := emod (backSubstitute (quotients w m w)).2 m

/-! ### Products and sums (rules R121, R123) -/

/-- `mulmod(a, b, m)`: the exact product, reduced once (rule R121). -/
def mulmod (a b m : Nat) : Nat := a * b % m

/-- A bit as a number: 0 or 1. -/
def bitVal (bit : Bool) : Nat := if bit then 1 else 0

/-- `ssum(bit, pk)`: the sum of `bit[j] · pk[j]` (rule R123), position by position. -/
def ssum : List Bool → List Nat → Nat
  | [],          _       => 0
  | _ :: _,      []      => 0
  | bit :: bits, p :: pk => bitVal bit * p + ssum bits pk

end Sys2Proof.Machine
end

