-- ==== Sys2Proof/Machine/State.lean ====
section
/-! DEFINITION. The state of the engine (rules R20 to R32), the faults, and the state after reset (rule R31). -/
namespace Sys2Proof.Machine

/-- The five faults of rule R171.
They are events of the running machine: a fault is a NEXT state, the fault state of rule R173. -/
inductive FaultKind where
  /-- The word at a command position is no command; raised by the engine step. -/
  | illegalCmd
  /-- A modulus of 0 (`MULM`, `INV`) or 1 (`INV`). -/
  | modRange
  /-- `INV` with a modulus and a number that are not coprime. -/
  | notCoprime
  /-- A key-table index that does not exist (`KST`, `KLD`, `MACB`). -/
  | keyRange
  /-- A value that cannot be held (`LDI`, `MACB`) or described by a response (`RDR`). -/
  | capacity
  deriving DecidableEq, Repr

/-- The reasons for which the MACHINE stops: there is none.
Every fault of rule R171 is a state the engine goes on from (rules R173, R174), every command finishes (rule R108), and
the spec leaves no behaviour undefined (93_implementation_defined.md), so no constructor stands here (log entry 9). -/
inductive Fault where
  deriving DecidableEq, Repr

/-- The reasons for which the MODEL has no meaning for an instruction. -/
inductive Refusal where
  /-- Answered by an arm of `exec` whose instruction has no meaning yet; no arm does (safe). -/
  | notModelled (mnemonic : String)
  deriving DecidableEq, Repr

/-- The status register `STATUS` (rule R24): fields `FLT`, `CP` and `CAUSE`, all other bits read 0. -/
structure Status where
  /-- `FLT`: the engine is in the fault state. -/
  flt   : Bool
  /-- `CP`: the most recent `GCD` produced 1. -/
  cp    : Bool
  /-- `CAUSE`: the code of the fault held, 0 when none is. -/
  cause : BitVec 4
  deriving DecidableEq, Repr

/-- The key table as data (rule R23): pairs of an index and its entry, indices strictly rising, no entry 0.
An index without a pair reads 0, the value rule R31 gives every entry after reset (log entry 3). -/
abbrev KeyTable := List (Nat × Nat)

/-- The architectural state of rule R20, and the parameters of rule R6 (log entry 1). -/
structure State where
  /-- `b[0]` to `b[7]` (rule R21). -/
  regs   : Vector Nat 8
  /-- `ACC` (rule R22). -/
  acc    : Nat
  /-- `KT` (rule R23). -/
  kt     : KeyTable
  /-- `STATUS` (rule R24). -/
  status : Status
  /-- `FCMD` (rule R25). -/
  fcmd   : Word
  /-- `CQ`, head first (rule R26). -/
  cq     : List Word
  /-- `RQ`, head first (rule R26). -/
  rq     : List Word
  /-- `KT_SIZE` and `MAXBITS` (rule R6). -/
  params : Params
  deriving DecidableEq, Repr

/-- `STATUS` after reset (rule R31). -/
def Status.clear : Status := { flt := false, cp := false, cause := 0#4 }

/-- The state after hardware reset of an engine with given parameters (rules R31, R200). -/
def State.resetWith (p : Params) : State :=
  { regs := Vector.replicate 8 0, acc := 0, kt := [], status := Status.clear, fcmd := 0#32, cq := [], rq := [],
    params := p }

/-- The state after hardware reset (rule R31), with the parameters of `Config.defaultParams` (log entry 2). -/
def State.reset : State := State.resetWith Config.defaultParams

end Sys2Proof.Machine
end

