-- ==== Sys2Proof/Machine/Flags.lean ====
section
/-! DEFINITION. The status register as flags and as bits: cause codes (rule R171), the coprime flag (rule R101), the
status word (rules R24, R72) and the capacity check (rule R28). -/
namespace Sys2Proof.Machine

/-- The cause code of a fault (rule R171). -/
def causeCode : FaultKind → BitVec 4
  | .illegalCmd => 1#4
  | .modRange   => 2#4
  | .notCoprime => 3#4
  | .keyRange   => 4#4
  | .capacity   => 5#4

/-- `CP` after a `GCD` that produced `g` (rule R101). -/
def coprimeFlag (g : Nat) : Bool := g == 1

/-- `STATUS` at fault entry: `FLT` set, `CAUSE` the fault's code, `CP` kept (rule R173). -/
def Status.entered (st : Status) (k : FaultKind) : Status := { st with flt := true, cause := causeCode k }

/-- `STATUS` at fault return by `CLRF`: `FLT` and `CAUSE` cleared, `CP` kept (rule R141). -/
def Status.returned (st : Status) : Status := { st with flt := false, cause := 0#4 }

/-- `STATUS` with `CP` written (rule R101). -/
def Status.withCp (st : Status) (cp : Bool) : Status := { st with cp := cp }

/-- Word 0 of the `RDS` response, laid out by the table of rule R72; its low half is the register of rule R24. -/
def statusWord (st : Status) : Word :=
  0x20#8 ++ 0x00#8 ++ 0x00#8 ++ st.cause ++ 0#2 ++ BitVec.ofBool st.cp ++ BitVec.ofBool st.flt

/-- The header of an `RDR` response of `len` limbs (rule R71). -/
def rdrHeader (len : Nat) : Word := 0x04#8 ++ 0x00#8 ++ BitVec.ofNat 16 len

/-- `fits(v)`: `MAXBITS` is `∞` or `bitlen(v) ≤ MAXBITS` (rule R28). -/
def fits (p : Params) (v : Nat) : Bool :=
  match p.maxBits with
  | none   => true
  | some n => decide (bitlen v ≤ n)

end Sys2Proof.Machine
end

