-- ==== Sys2Proof/Machine/Ops.lean ====
section
/-! DEFINITION. The named operations over the state that the commands' meanings are written with (rule R10): registers,
accumulator, key table, streams, the capacity-checked write, fault entry (rule R173), fault return (rule R141), reset. -/
namespace Sys2Proof.Machine

/-! ### The key table (rules R41, R42) -/

/-- The entry at an index; an index without a pair reads 0 (rule R32). -/
def KeyTable.read : KeyTable → Nat → Nat
  | [],             _   => 0
  | (j, v) :: rest, idx => if j = idx then v else KeyTable.read rest idx

/-- Replace the whole entry at an index, keeping the canonical form: indices strictly rising, no entry 0. -/
def KeyTable.write : KeyTable → Nat → Nat → KeyTable
  | [],             idx, v => if v = 0 then [] else [(idx, v)]
  | (j, u) :: rest, idx, v =>
    if idx < j then (if v = 0 then (j, u) :: rest else (idx, v) :: (j, u) :: rest)
    else if idx = j then (if v = 0 then rest else (idx, v) :: rest)
    else (j, u) :: KeyTable.write rest idx v

/-- The canonical form of a key table: indices strictly rising, and no entry 0. -/
def KeyTable.wf (t : KeyTable) : Bool :=
  decide (t.Pairwise fun p q => p.1 < q.1) && t.all fun p => p.2 != 0

/-- `MemRead(idx, 1)` (rule R10). -/
def State.ktRead (s : State) (idx : Nat) : Nat := s.kt.read idx

/-- The key table with one entry replaced. -/
def State.ktSet (s : State) (idx v : Nat) : State := { s with kt := s.kt.write idx v }

/-! ### Registers, accumulator, status, streams -/

/-- `b[i]` (rule R21). -/
def State.reg (s : State) (r : Reg) : Nat := s.regs.get r

/-- The state with `b[i]` holding `v`. -/
def State.setReg (s : State) (r : Reg) (v : Nat) : State := { s with regs := s.regs.set r.val v r.isLt }

/-- The state with `ACC` holding `v` (rule R22). -/
def State.setAcc (s : State) (v : Nat) : State := { s with acc := v }

/-- The state with `CP` written (rule R24). -/
def State.setCp (s : State) (cp : Bool) : State := { s with status := s.status.withCp cp }

/-- The state with another command stream. -/
def State.setCq (s : State) (ws : List Word) : State := { s with cq := ws }

/-- `emit(w0, w1, ...)`: the words join the tail of `RQ` in that order (rules R10, R52). -/
def State.emit (s : State) (ws : List Word) : State := { s with rq := s.rq ++ ws }

/-! ### Faults (rules R141, R173, R174) -/

/-- `raise <Fault>(cmd)`: fault entry, the one place where the fault state is entered (rule R173).
`FLT` and `CAUSE` are written, `FCMD` takes the command word, and nothing else changes. -/
def State.raise (s : State) (k : FaultKind) (cmd : Word) : State :=
  { s with status := s.status.entered k, fcmd := cmd }

/-- Fault return by `CLRF`: `FLT`, `CAUSE` and `FCMD` are cleared and nothing else changes (rules R141, R175). -/
def State.clearFault (s : State) : State := { s with status := s.status.returned, fcmd := 0#32 }

/-- A capacity-checked write (rule R28): the state `done` when `v` fits, else the command `cmd` raises `Capacity` in `s`
and has no other effect.
`done` holds everything the command writes, so that a command writes all its destinations or none (rule R77). -/
def State.storing (s : State) (cmd : Word) (v : Nat) (done : State) : State :=
  if fits s.params v then done else s.raise .capacity cmd

/-- `b[rd] <- v` (rule R10). -/
def State.writeReg (s : State) (cmd : Word) (rd : Reg) (v : Nat) : State := s.storing cmd v (s.setReg rd v)

/-- `ACC <- v` (rule R10). -/
def State.writeAcc (s : State) (cmd : Word) (v : Nat) : State := s.storing cmd v (s.setAcc v)

/-- `MemWrite(idx, 1, v)` (rule R10). -/
def State.writeKey (s : State) (cmd : Word) (idx v : Nat) : State := s.storing cmd v (s.ktSet idx v)

/-- The commands that execute in the fault state: `RDS`, `CLRF` and `RST` (rule R174). -/
def executesInFault : Instr → Bool
  | .nop          => false
  | .lds _ _      => false
  | .ldi _ _      => false
  | .mov _ _      => false
  | .rdr _        => false
  | .kst _ _      => false
  | .kld _ _      => false
  | .mva _        => false
  | .gcd _ _ _    => false
  | .inv _ _ _    => false
  | .mulm _ _ _ _ => false
  | .aclr         => false
  | .macb _ _     => false
  | .rds          => true
  | .clrf         => true
  | .rst          => true

/-- The fault-state filter: in the fault state every command but `RDS`, `CLRF` and `RST` is discarded (rule R174). -/
def discards (i : Instr) (s : State) : Bool := s.status.flt && !executesInFault i

/-- What the engine does with an `Illegal` word it has taken from `CQ`: discard it in the fault state, else raise
`IllegalCmd` (rules R66, R69, R174). -/
def takeIllegal (w : Word) (s : State) : State := if s.status.flt then s else s.raise .illegalCmd w

/-! ### Reset (rules R142, R200, R201) -/

/-- What hardware reset and `RST` have in common: every number, `STATUS` and `FCMD` are 0 (rule R31). -/
def State.clearAll (s : State) : State :=
  { s with regs := Vector.replicate 8 0, acc := 0, kt := [], status := Status.clear, fcmd := 0#32 }

/-- The hardware reset event: besides, both streams are emptied (rules R200, R201). -/
def State.hardwareReset (s : State) : State := { s.clearAll with cq := [], rq := [] }

end Sys2Proof.Machine
end

