-- ==== Sys2Proof/Machine/Operands.lean ====
section
/-! DEFINITION. The operand forms of the commands (rules R41, R62, R63): immediates, key-table indices, payloads. -/
namespace Sys2Proof.Machine

/-- `zext_16(imm16)`: an immediate is a natural number in `[0, 65535]` (rule R63). -/
def zext16 (imm : BitVec 16) : Nat := imm.toNat

/-- A key-table index is legal when it is below `KT_SIZE` (rule R41). -/
def keyLegal (s : State) (idx : BitVec 16) : Bool := decide (zext16 idx < s.params.ktSize)

/-- A key-table access by a command `cmd`: `KeyRange` when the index does not exist, else the access (rules R41,
R171). -/
def State.withKey (s : State) (cmd : Word) (idx : BitVec 16) (access : State) : State :=
  if keyLegal s idx then access else s.raise .keyRange cmd

/-- The key-table entry an index operand names (rule R41). -/
def State.keyOperand (s : State) (idx : BitVec 16) : Nat := s.ktRead (zext16 idx)

/-- The number the payload of an `LDI` carries (rules R43, R44, R92). -/
def payloadOperand (payload : List Word) : Nat := limbsValue payload

/-- The term a `MACB` adds: the selected entry, or 0 (rule R125). -/
def State.macbTerm (s : State) (idx : BitVec 16) (bit : Bool) : Nat := bitVal bit * s.keyOperand idx

end Sys2Proof.Machine
end

