-- ==== Sys2Proof/Machine/DataMovement.lean ====
section
/-! DEFINITION. The data movement commands (40_data_movement.md, rules R90 to R97).
A meaning is the effect of a command the engine executes, on the state after its words have left `CQ` (rule R69). -/
namespace Sys2Proof.Machine

/-- `NOP` (rule R90). -/
def execNop (s : State) : Host.Outcome State Fault Refusal := .next s

/-- `LDS rd, #imm16` (rule R91). -/
def execLds (rd : Reg) (imm : BitVec 16) (s : State) : Host.Outcome State Fault Refusal :=
  .next (s.writeReg (encodeHead (.lds rd imm)) rd (zext16 imm))

/-- `LDI rd, #L` with its payload (rule R92). -/
def execLdi (rd : Reg) (payload : List Word) (s : State) : Host.Outcome State Fault Refusal :=
  .next (s.writeReg (encodeHead (.ldi rd payload)) rd (payloadOperand payload))

/-- `MOV rd, ra` (rule R93). -/
def execMov (rd ra : Reg) (s : State) : Host.Outcome State Fault Refusal :=
  .next (s.writeReg (encodeHead (.mov rd ra)) rd (s.reg ra))

/-- `RDR ra` (rules R71, R94). -/
def execRdr (ra : Reg) (s : State) : Host.Outcome State Fault Refusal :=
  .next (if nlimbs (s.reg ra) > Config.maxXferLimbs then s.raise .capacity (encodeHead (.rdr ra))
    else s.emit (rdrHeader (nlimbs (s.reg ra)) :: limbs (s.reg ra)))

/-- `KST ra, #idx` (rule R95). -/
def execKst (ra : Reg) (idx : BitVec 16) (s : State) : Host.Outcome State Fault Refusal :=
  .next (s.withKey (encodeHead (.kst ra idx)) idx (s.writeKey (encodeHead (.kst ra idx)) (zext16 idx) (s.reg ra)))

/-- `KLD rd, #idx` (rule R96). -/
def execKld (rd : Reg) (idx : BitVec 16) (s : State) : Host.Outcome State Fault Refusal :=
  .next (s.withKey (encodeHead (.kld rd idx)) idx (s.writeReg (encodeHead (.kld rd idx)) rd (s.keyOperand idx)))

/-- `MVA rd` (rule R97). -/
def execMva (rd : Reg) (s : State) : Host.Outcome State Fault Refusal :=
  .next (s.writeReg (encodeHead (.mva rd)) rd s.acc)

end Sys2Proof.Machine
end

