-- ==== Sys2Proof/Machine/Euclid.lean ====
section
/-! DEFINITION. The Euclidean commands (41_euclid.md, rules R101 and R107). -/
namespace Sys2Proof.Machine

/-- `GCD rd, ra, rb`: the gcd to `b[rd]`, and `CP` (rule R101). -/
def execGcd (rd ra rb : Reg) (s : State) : Host.Outcome State Fault Refusal :=
  .next (s.storing (encodeHead (.gcd rd ra rb)) (gcdOf (s.reg ra) (s.reg rb))
    ((s.setReg rd (gcdOf (s.reg ra) (s.reg rb))).setCp (coprimeFlag (gcdOf (s.reg ra) (s.reg rb)))))

/-- `INV rd, rw, rm`: the inverse of `b[rw]` modulo `b[rm]`; `ModRange` is checked before `NotCoprime` (rules R107,
R172). -/
def execInv (rd rw rm : Reg) (s : State) : Host.Outcome State Fault Refusal :=
  .next (if s.reg rm < 2 then s.raise .modRange (encodeHead (.inv rd rw rm))
    else if gcdOf (s.reg rm) (s.reg rw) ≠ 1 then s.raise .notCoprime (encodeHead (.inv rd rw rm))
    else s.writeReg (encodeHead (.inv rd rw rm)) rd (inverse (s.reg rm) (s.reg rw)))

end Sys2Proof.Machine
end

