-- ==== Sys2Proof/Machine/ModMul.lean ====
section
/-! DEFINITION. The modular multiplier and the subset-sum accumulator (42_modmul_accumulate.md, rules R122, R124,
R125). -/
namespace Sys2Proof.Machine

/-- `MULM rd, ra, rb, rm` (rule R122). -/
def execMulm (rd ra rb rm : Reg) (s : State) : Host.Outcome State Fault Refusal :=
  .next (if s.reg rm = 0 then s.raise .modRange (encodeHead (.mulm rd ra rb rm))
    else s.writeReg (encodeHead (.mulm rd ra rb rm)) rd (mulmod (s.reg ra) (s.reg rb) (s.reg rm)))

/-- `ACLR` (rule R124). -/
def execAclr (s : State) : Host.Outcome State Fault Refusal :=
  .next (s.writeAcc (encodeHead .aclr) 0)

/-- `MACB #idx, #bit`: the index is checked whatever the bit is, and before the capacity (rules R125, R172). -/
def execMacb (idx : BitVec 16) (bit : Bool) (s : State) : Host.Outcome State Fault Refusal :=
  .next (s.withKey (encodeHead (.macb idx bit)) idx
    (s.writeAcc (encodeHead (.macb idx bit)) (s.acc + s.macbTerm idx bit)))

end Sys2Proof.Machine
end

