-- ==== Sys2Proof/Machine/System.lean ====
section
/-! DEFINITION. The system commands (43_system.md, rules R140 to R142), which execute in every state. -/
namespace Sys2Proof.Machine

/-- `RDS`: the status word and `FCMD` (rules R72, R140). -/
def execRds (s : State) : Host.Outcome State Fault Refusal := .next (s.emit [statusWord s.status, s.fcmd])

/-- `CLRF`: fault return (rules R141, R175). -/
def execClrf (s : State) : Host.Outcome State Fault Refusal := .next s.clearFault

/-- `RST`: every number, `STATUS` and `FCMD` to 0; both streams stay (rules R31, R142). -/
def execRst (s : State) : Host.Outcome State Fault Refusal := .next s.clearAll

end Sys2Proof.Machine
end

