-- ==== Sys2Proof/Machine/Dispatch.lean ====
section
/-! DEFINITION. One arm per command of rule R64. -/
namespace Sys2Proof.Machine

def exec (i : Instr) (s : State) : Host.Outcome State Fault Refusal :=
  match i with
  | .nop => Sys2Proof.Machine.execNop s
  | .lds rd imm => Sys2Proof.Machine.execLds rd imm s
  | .ldi rd payload => Sys2Proof.Machine.execLdi rd payload s
  | .mov rd ra => Sys2Proof.Machine.execMov rd ra s
  | .rdr ra => Sys2Proof.Machine.execRdr ra s
  | .kst ra idx => Sys2Proof.Machine.execKst ra idx s
  | .kld rd idx => Sys2Proof.Machine.execKld rd idx s
  | .mva rd => Sys2Proof.Machine.execMva rd s
  | .gcd rd ra rb => Sys2Proof.Machine.execGcd rd ra rb s
  | .inv rd rw rm => Sys2Proof.Machine.execInv rd rw rm s
  | .mulm rd ra rb rm => Sys2Proof.Machine.execMulm rd ra rb rm s
  | .aclr => Sys2Proof.Machine.execAclr s
  | .macb idx bit => Sys2Proof.Machine.execMacb idx bit s
  | .rds => Sys2Proof.Machine.execRds s
  | .clrf => Sys2Proof.Machine.execClrf s
  | .rst => Sys2Proof.Machine.execRst s

end Sys2Proof.Machine
end

