-- ==== Sys2Proof/Machine/Step.lean ====
section
/-! DEFINITION. The engine step of rule R69. -/
namespace Sys2Proof.Machine

/-- One engine step (rule R69): nothing when `CQ` is empty or an `LDI` waits for payload; else one command leaves `CQ`
and is discarded, raises `IllegalCmd`, or is executed. -/
def step (s : State) : Host.Outcome State Fault Refusal :=
  match decode s.cq with
  | .idle             => .next s
  | .waiting _ _      => .next s
  | .illegal _ w rest => .next (takeIllegal w (s.setCq rest))
  | .command i rest   => if discards i s then .next (s.setCq rest) else exec i (s.setCq rest)

/-- The state in which the words of one command of the table stand at the head of `CQ`, where the next step takes
them; whatever stood in `CQ` stands behind them (log entry 5). -/
def State.withFetchWord (s : State) (nbits w : Nat) : State := s.setCq (tableWords nbits w ++ s.cq)

end Sys2Proof.Machine
end

