-- ==== Sys2Proof/Machine/HostInterface.lean ====
section
/-! DEFINITION. What the host can do to the engine and see of it (rules R50, R178), when the engine is idle or waits
(rules R53, R68), and runs in which host actions stand between engine steps (log entry 6). -/
namespace Sys2Proof.Machine

/-- The four host actions of rule R50. -/
inductive HostAction where
  /-- Append one word to `CQ`. -/
  | append (w : Word)
  /-- Remove one word from `RQ`. -/
  | take
  /-- Assert hardware reset. -/
  | reset
  /-- Observe the fault line. -/
  | observe
  deriving DecidableEq, Repr

/-- What a host action hands to the host. -/
inductive HostSees where
  | nothing
  | word (w : Word)
  | line (level : Bool)
  deriving DecidableEq, Repr

/-- The fault line: its value at every moment is `STATUS.FLT` (rule R178). -/
def State.faultLine (s : State) : Bool := s.status.flt

/-- Words the host appends to the tail of `CQ` (rules R26, R50). -/
def State.append (s : State) (ws : List Word) : State := s.setCq (s.cq ++ ws)

/-- One host action; `none` where rule R50 does not allow it (taking a word from an empty `RQ`). -/
def hostAct : HostAction → State → Option (HostSees × State)
  | .append w, s => some (.nothing, s.append [w])
  | .take,     s =>
    match s.rq with
    | []      => none
    | w :: ws => some (.word w, { s with rq := ws })
  | .reset,    s => some (.nothing, s.hardwareReset)
  | .observe,  s => some (.line s.faultLine, s)

/-- The engine is idle: `CQ` is empty (rules R53, R69). -/
def State.idle (s : State) : Bool := s.cq.isEmpty

/-- The engine waits for the payload of the `LDI` at the head of `CQ` (rule R68). -/
def State.waiting (s : State) : Bool :=
  match decode s.cq with
  | .waiting _ _   => true
  | .idle          => false
  | .illegal _ _ _ => false
  | .command _ _   => false

/-- The state a step answers, when it answers a next state. -/
def nextState : Host.Outcome State Fault Refusal → Option State
  | .next t    => some t
  | .fault _   => none
  | .refused _ => none

/-- What can happen to the engine: a step of its own, or a host action (rules R5, R50). -/
inductive Event where
  | engine
  | host (a : HostAction)
  deriving DecidableEq, Repr

/-- One event; steps are atomic, so a host action lands between two of them (rules R47, R69). -/
def happen : Event → State → Option State
  | .engine, s => nextState (step s)
  | .host a, s => (hostAct a s).map Prod.snd

/-- A sequence of events. -/
def happenAll : List Event → State → Option State
  | [],      s => some s
  | e :: es, s => (happen e s).bind (happenAll es)

/-! ### Responses (rules R52, R71, R72) -/

/-- The number of words behind a response header: bits 15:0 for an `RDR` response (rule R71), one for an `RDS` response
(rule R72); `none` for a word that is no header.
DESIGN CHOICE (log entry 15): rule R52's clause that a header's low bits give the number of words that follow does not
hold of `RDS`, whose low bits are `CAUSE`, `CP` and `FLT` by rules R72 and R140, so there the opcode alone gives it. -/
def responseLength (header : Word) : Option Nat :=
  if opField header = 0x04#8 then some (immField header).toNat
  else if opField header = 0x20#8 then some 1
  else none

/-- One whole response: a header and exactly the words that belong to it (rules R52, R71, R72; log entry 15). -/
def isResponse : List Word → Bool
  | []          => false
  | h :: behind => responseLength h == some behind.length

/-- The host's reading of `RQ`: cut it into responses by their headers, at most `fuel` of them; `none` where a header
is no header or words are missing (rules R52, R204). -/
def cutResponses : Nat → List Word → Option (List (List Word))
  | _,        []          => some []
  | 0,        _ :: _      => none
  | fuel + 1, h :: behind =>
    match responseLength h with
    | none   => none
    | some n =>
      if behind.length < n then none
      else (cutResponses fuel (behind.drop n)).map fun rs => (h :: behind.take n) :: rs

end Sys2Proof.Machine
end

