-- ==== Sys2Proof/Machine/Sequences.lean ====
section
/-! DEFINITION. The pseudo-instructions of rule R74 and the host's command sequences for the source's operations
(44_host_sequences.md). Register choices are the conventions of rule R150, not properties of the engine. -/
namespace Sys2Proof.Machine

/-- `LDV rd, #value` (rule R74): `LDS` below 65536, else `LDI` of the canonical limbs; `none` is the assembly error of a
value of more than 65535 limbs. -/
def ldv (rd : Reg) (value : Nat) : Option Instr :=
  if value < 65536 then some (.lds rd (BitVec.ofNat 16 value))
  else if nlimbs value ≤ Config.maxXferLimbs then some (.ldi rd (limbs value))
  else none

/-- `MACB #j, #bit[j]` for the bits of a block from index `start` on, the leftmost character first (rules R74, R126). -/
def macbBlock : Nat → List Bool → List Instr
  | _,     []          => []
  | start, bit :: bits => .macb (BitVec.ofNat 16 start) bit :: macbBlock (start + 1) bits

/-- `ACLR`, the `MACB` commands of a block, `MVA rd` (rule R74). -/
def ssumCommands (rd : Reg) (bits : List Bool) : List Instr := .aclr :: macbBlock 0 bits ++ [.mva rd]

/-- `SSUM rd, "c0c1...c(k-1)"` with `1 ≤ k ≤ KT_SIZE` (rule R74). -/
def ssumPseudo (p : Params) (rd : Reg) (bits : List Bool) : Option (List Instr) :=
  if 1 ≤ bits.length ∧ bits.length ≤ p.ktSize then some (ssumCommands rd bits) else none

/-- One attempt of the multiplier search with `m` in `b0` (rule R151). -/
def searchAttempt (w : Nat) : Option (List Instr) := (ldv 1 w).map fun load => [load, .gcd 2 0 1, .rds]

/-- The inverse of the multiplier in `b1` modulo `b0`, to `b3` (rule R152). -/
def inverseCommand : Instr := .inv 3 1 0

/-- One entry of the public key: `KT[i]` becomes `(w · s[i]) mod m` (rule R153). -/
def publicKeyEntry (term : Nat) (i : BitVec 16) : Option (List Instr) :=
  (ldv 4 term).map fun load => [load, .mulm 5 1 4 0, .kst 5 i]

/-- Encryption of one block (rule R154). -/
def encryptBlock (bits : List Bool) : List Instr := ssumCommands 6 bits ++ [.rdr 6]

/-- The first step of decryption of a cipher value, with `m` in `b0` and the inverse in `b3` (rule R155). -/
def decryptFirstStep (c : Nat) : Option (List Instr) :=
  (ldv 6 c).map fun load => [load, .mulm 7 6 3 0, .rdr 7]

/-- Forming the modulus from the `n + 1` table entries `s[0..n)` and `r` (rule R157). -/
def formModulus (n : Nat) : List Instr := ssumCommands 0 (List.replicate (n + 1) true)

end Sys2Proof.Machine
end

