-- ==== Sys2Proof/Safety.lean ====
section
/-! DEFINITION. The terms claims are stated in: the invariant of the engine's states, and what a command changes and
leaves unchanged. -/
namespace Sys2Proof.Machine

/-- The invariant: what holds of every state a run reaches, and is used where a rule argues that a stored value
already fits (rules R28, R93, R95, R97, R101, R107, R122). -/
structure EngineInv (s : State) : Prop where
  /-- The parameters are legal (rule R6). -/
  legal    : Config.legal s.params = true
  /-- The key table has its canonical form (log entry 3). -/
  table    : s.kt.wf = true
  /-- Every listed index exists (rules R23, R41). -/
  indices  : ∀ e ∈ s.kt, e.1 < s.params.ktSize
  /-- Every register fits (rule R28). -/
  regsFit  : ∀ r, fits s.params (s.reg r) = true
  /-- The accumulator fits (rule R28). -/
  accFits  : fits s.params s.acc = true
  /-- Every key-table entry fits (rule R28). -/
  keysFit  : ∀ e ∈ s.kt, fits s.params e.2 = true
  /-- `FLT = 1` exactly when `CAUSE ≠ 0` (rule R24). -/
  fltCause : s.status.flt = true ↔ s.status.cause ≠ 0#4
  /-- Codes 6 to 15 are not used (rule R171). -/
  causeMax : s.status.cause.toNat ≤ 5
  /-- `FCMD` is 0 while `FLT = 0` (rule R25). -/
  fcmdZero : s.status.flt = false → s.fcmd = 0#32

/-! ### Words as numbers -/

/-- The R-format word of rule R61 as a number: `op`, `rd`, `ra`, `rb`, `rm` at bits 31:24, 23:20, 19:16, 15:12, 11:8. -/
def rWord (op rd ra rb rm : Nat) : Word :=
  BitVec.ofNat 32 (op * 2 ^ 24 + rd * 2 ^ 20 + ra * 2 ^ 16 + rb * 2 ^ 12 + rm * 2 ^ 8)

/-- The I-format word of rule R62 as a number: `op`, `r`, `f`, `imm16` at bits 31:24, 23:20, 19:16, 15:0. -/
def iWord (op r f imm : Nat) : Word := BitVec.ofNat 32 (op * 2 ^ 24 + r * 2 ^ 20 + f * 2 ^ 16 + imm)

/-- At a command position the word `w` is the whole command `i`, whatever stands behind it. -/
def WordOf (w : Word) (i : Instr) : Prop := ∀ rest, decode (w :: rest) = .command i rest

/-! ### Frames -/

/-- Every general register is unchanged. -/
def SameRegs (s t : State) : Prop := ∀ r, t.reg r = s.reg r

/-- Every general register but `rd` is unchanged. -/
def SameRegsBut (rd : Reg) (s t : State) : Prop := ∀ r, r ≠ rd → t.reg r = s.reg r

/-- Every entry of the key table reads as before. -/
def SameKeys (s t : State) : Prop := ∀ idx, t.ktRead idx = s.ktRead idx

/-- Every entry of the key table but the one at `i` reads as before. -/
def SameKeysBut (i : Nat) (s t : State) : Prop := ∀ idx, idx ≠ i → t.ktRead idx = s.ktRead idx

/-- Both streams and the parameters are unchanged. -/
structure SameStreams (s t : State) : Prop where
  cq     : t.cq = s.cq
  rq     : t.rq = s.rq
  params : t.params = s.params

/-- `STATUS` (all three fields) and `FCMD` are unchanged. -/
structure SameControl (s t : State) : Prop where
  flt   : t.status.flt = s.status.flt
  cp    : t.status.cp = s.status.cp
  cause : t.status.cause = s.status.cause
  fcmd  : t.fcmd = s.fcmd

/-- `t` is `s` with the register `rd` holding `v`, and nothing else changed. -/
structure WritesReg (rd : Reg) (v : Nat) (s t : State) : Prop where
  value   : t.reg rd = v
  regs    : SameRegsBut rd s t
  acc     : t.acc = s.acc
  keys    : SameKeys s t
  control : SameControl s t
  streams : SameStreams s t

/-- `t` is `s` with `ACC` holding `v`, and nothing else changed. -/
structure WritesAcc (v : Nat) (s t : State) : Prop where
  value   : t.acc = v
  regs    : SameRegs s t
  keys    : SameKeys s t
  control : SameControl s t
  streams : SameStreams s t

/-- `t` is `s` with the key-table entry at `i` replaced by `v`, and nothing else changed. -/
structure WritesKey (i v : Nat) (s t : State) : Prop where
  value   : t.ktRead i = v
  keys    : SameKeysBut i s t
  regs    : SameRegs s t
  acc     : t.acc = s.acc
  control : SameControl s t
  streams : SameStreams s t

/-- `t` is `s` with the words `ws` appended to `RQ`, and nothing else changed. -/
structure Emits (ws : List Word) (s t : State) : Prop where
  rq      : t.rq = s.rq ++ ws
  cq      : t.cq = s.cq
  params  : t.params = s.params
  regs    : SameRegs s t
  acc     : t.acc = s.acc
  keys    : SameKeys s t
  control : SameControl s t

/-- `t` is `s` after fault entry with a cause code and a command word: `FLT`, `CAUSE` and `FCMD` are written and nothing
else is changed (rule R173). -/
structure EntersFault (code : BitVec 4) (cmd : Word) (s t : State) : Prop where
  flt     : t.status.flt = true
  cause   : t.status.cause = code
  fcmd    : t.fcmd = cmd
  cp      : t.status.cp = s.status.cp
  regs    : SameRegs s t
  acc     : t.acc = s.acc
  keys    : SameKeys s t
  streams : SameStreams s t

/-- Every number, `STATUS` and `FCMD` are 0 (rule R31). -/
structure Zeroised (t : State) : Prop where
  regs  : ∀ r, t.reg r = 0
  acc   : t.acc = 0
  keys  : ∀ idx, t.ktRead idx = 0
  flt   : t.status.flt = false
  cp    : t.status.cp = false
  cause : t.status.cause = 0#4
  fcmd  : t.fcmd = 0x00000000#32

end Sys2Proof.Machine
end

