-- ==== Sys2Proof/Certificates/Slice0/Obligations.lean ====
section
/-! DEFINITION. The statements for the provers. Each docstring names the rules of the spec it formalises. -/

open Sys2Proof Sys2Proof.Machine

/-! ### Encoding and decoding -/

/-- Rules R60 to R66: a well-formed command's words, whatever stands behind them, decode to that command and leave
exactly what stands behind them. -/
def Obligations.DecodeOfEncodeIsTheCommand : Prop :=
  ∀ (i : Instr) (rest : List Word), i.WellFormed = true → decode (encode i ++ rest) = .command i rest

/-- Rules R60, R66, D12: no two streams mean one command: what decodes as a command is that command's encoding. -/
def Obligations.EncodeOfDecodeIsTheStream : Prop :=
  ∀ (ws : List Word) (i : Instr) (rest : List Word),
    decode ws = .command i rest → i.WellFormed = true ∧ encode i ++ rest = ws

/-- Rules R64, R66: a word is a row's command exactly when `(w AND mask) = match`, and it is `Illegal` when it matches
no row. -/
def Obligations.DecoderMatchesOpcodeTable : Prop :=
  ∀ w : Word,
    (∀ h, decodeHead w = .ok h → ∀ row ∈ opcodeTable, (row.hits w = true ↔ row.mnemonic = headMnemonic h)) ∧
    (∀ e, decodeHead w = .error e → ∀ row ∈ opcodeTable, row.hits w = false)

/-- Rule R66: the rows of the opcode table do not overlap, so at most one matches. -/
def Obligations.OpcodeRowsDoNotOverlap : Prop :=
  ∀ w : Word, ∀ p ∈ opcodeTable, ∀ q ∈ opcodeTable, p.hits w = true → q.hits w = true → p = q

/-- Rules R64, R66: an opcode is unassigned exactly when it is none of the sixteen, and there are 240 of those. The
name of the refusal is the model's own (log entry 14). -/
def Obligations.UnassignedOpcodesAreIllegal : Prop :=
  (∀ w : Word, decodeHead w = .error .unassignedOpcode ↔
    (opField w).toNat ∉
      [0x00, 0x01, 0x02, 0x03, 0x04, 0x05, 0x06, 0x07, 0x10, 0x11, 0x12, 0x18, 0x19, 0x20, 0x21, 0x3F]) ∧
  ((List.range 256).filter fun op => decide (decodeHead (rFormat (BitVec.ofNat 8 op) 0 0 0 0)
    = .error .unassignedOpcode)).length = 240

/-- The worked encodings and the illegal words that rule R78 lists, which the spec marks
`[derived: from rule R61, rule R62, rule R64 and rule R66]`. That the listed words are `Illegal` is the rule's; the names
of the reasons are the model's own (log entry 14). -/
def Obligations.WorkedEncodingsDecode : Prop :=
  (WordOf 0x01000019#32 (.lds 0 25#16) ∧ WordOf 0x01100007#32 (.lds 1 7#16) ∧
    (∀ rest, decode (0x02400002#32 :: 0x89ABCDEF#32 :: 0x01234567#32 :: rest) =
      .command (.ldi 4 [0x89ABCDEF#32, 0x01234567#32]) rest) ∧
    WordOf 0x03250000#32 (.mov 2 5) ∧ WordOf 0x04030000#32 (.rdr 3) ∧ WordOf 0x05500003#32 (.kst 5 3#16) ∧
    WordOf 0x06200003#32 (.kld 2 3#16) ∧ WordOf 0x07600000#32 (.mva 6) ∧ WordOf 0x10201000#32 (.gcd 2 0 1)) ∧
  (WordOf 0x11310000#32 (.inv 3 1 0) ∧ WordOf 0x12514000#32 (.mulm 5 1 4 0) ∧
    WordOf 0x12743000#32 (.mulm 7 4 3 0) ∧ WordOf 0x18000000#32 .aclr ∧ WordOf 0x19010002#32 (.macb 2#16 true) ∧
    WordOf 0x19000001#32 (.macb 1#16 false) ∧ WordOf 0x20000000#32 .rds ∧ WordOf 0x21000000#32 .clrf ∧
    WordOf 0x3F000000#32 .rst) ∧
  (decodeHead 0x08000000#32 = .error .unassignedOpcode ∧ decodeHead 0x03800000#32 = .error .noSuchRegister ∧
    decodeHead 0x00000001#32 = .error .reservedNotZero ∧ decodeHead 0x19020000#32 = .error .reservedNotZero ∧
    decodeHead 0x04100000#32 = .error .reservedNotZero ∧ decodeHead 0x02480001#32 = .error .reservedNotZero)

/-- Rule R68: a legal `LDI` waits while fewer than `L` words stand behind it, takes nothing and waits for ever if they
never come; once they stand there it takes exactly those, whatever they are; hardware reset ends the wait; an `Illegal`
word with opcode `0x02` has no payload. -/
def Obligations.LdiTakesItsPayload : Prop :=
  (∀ (w : Word) (rd : Reg) (len : BitVec 16), decodeHead w = .ok (.ldi rd len) →
    (∀ ws : List Word, ws.length < len.toNat → decode (w :: ws) = .waiting rd len) ∧
    (∀ payload rest : List Word, payload.length = len.toNat →
      decode (w :: (payload ++ rest)) = .command (.ldi rd payload) rest)) ∧
  (∀ (s : State) (rd : Reg) (len : BitVec 16) (k : Nat), decode s.cq = .waiting rd len →
    Host.Core.run Sys2Proof.core k s = .next s) ∧
  (∀ (s t : State), happen (.host .reset) s = some t → t.waiting = false) ∧
  (∀ (w : Word) (e : DecodeError) (ws : List Word), opField w = 0x02#8 → decodeHead w = .error e →
    decode (w :: ws) = .illegal e w ws)

/-! ### The engine step -/

/-- Rule R69, the engine step, line by line: idle; wait; discard in the fault state; `IllegalCmd`; execute. -/
def Obligations.StepFollowsTheEngineStep : Prop :=
  ∀ s : State,
    (s.cq = [] → step s = .next s) ∧
    (∀ rd len, decode s.cq = .waiting rd len → step s = .next s) ∧
    (∀ i rest, decode s.cq = .command i rest → s.status.flt = true → i ≠ .rds → i ≠ .clrf → i ≠ .rst →
      step s = .next (s.setCq rest)) ∧
    (∀ e w rest, decode s.cq = .illegal e w rest →
      step s = .next (if s.status.flt = true then s.setCq rest else (s.setCq rest).raise .illegalCmd w)) ∧
    (∀ i rest, decode s.cq = .command i rest → (s.status.flt = false ∨ i = .rds ∨ i = .clrf ∨ i = .rst) →
      step s = exec i (s.setCq rest))

/-- Rules R66, R171: outside the fault state an `Illegal` word raises `IllegalCmd`, and one word is consumed. -/
def Obligations.IllegalWordRaisesIllegalCmd : Prop :=
  ∀ (s : State) (w : Word) (rest : List Word) (e : DecodeError), s.status.flt = false → s.cq = w :: rest →
    decodeHead w = .error e → ∃ t, step s = .next t ∧ EntersFault 1#4 w (s.setCq rest) t

/-- Rule R174: in the fault state `RDS`, `CLRF` and `RST` execute; every other command, and every `Illegal` word, is
removed from `CQ` and nothing else happens; a legal `LDI` goes together with its payload, and the engine waits for the
payload if it has not all arrived. -/
def Obligations.FaultStateDiscards : Prop :=
  ∀ s : State, s.status.flt = true →
    (∀ i rest, (i = .rds ∨ i = .clrf ∨ i = .rst) → s.cq = encode i ++ rest → step s = exec i (s.setCq rest)) ∧
    (∀ i rest, i.WellFormed = true → s.cq = encode i ++ rest → i ≠ .rds → i ≠ .clrf → i ≠ .rst →
      step s = .next (s.setCq rest)) ∧
    (∀ w rest e, s.cq = w :: rest → decodeHead w = .error e → step s = .next (s.setCq rest)) ∧
    (∀ w rest rd len, s.cq = w :: rest → decodeHead w = .ok (.ldi rd len) → rest.length < len.toNat →
      step s = .next s)

/-- Rules R173, R174, R176: faults do not nest: while the fault state is held, `CAUSE` and `FCMD` keep describing the
first fault. -/
def Obligations.FaultsDoNotNest : Prop :=
  ∀ s t : State, s.status.flt = true → step s = .next t → t.status.flt = true →
    t.status.cause = s.status.cause ∧ t.fcmd = s.fcmd

/-- Rules R25, R173: a step that enters the fault state consumes exactly one command, records the very word it took at
the command position in `FCMD`, and changes nothing else. -/
def Obligations.FaultStepRecordsTheWordTaken : Prop :=
  ∀ s t : State, s.status.flt = false → step s = .next t → t.status.flt = true →
    ∃ w rest, s.cq = w :: rest ∧
      EntersFault t.status.cause w (s.setCq (rest.drop (payloadLength w))) t ∧
      1 ≤ t.status.cause.toNat ∧ t.status.cause.toNat ≤ 5

/-- Rule R170: a command that faults changes only `STATUS.FLT`, `STATUS.CAUSE` and `FCMD`. -/
def Obligations.FaultingCommandOnlyRecordsIt : Prop :=
  ∀ (i : Instr) (s t : State), exec i s = .next t → s.status.flt = false → t.status.flt = true →
    EntersFault t.status.cause (encodeHead i) s t

/-- Rules R108, R181: every command finishes. That a step of an idle or waiting engine answers the same state (V8 calls
the wait for payload stuck) and that no fault or refusal of the machine is ever answered are the model's readings (log
entries 4 and 9). -/
def Obligations.EveryStepAnswersNext : Prop :=
  (∀ (i : Instr) (s : State), ∃ t, exec i s = .next t) ∧ (∀ s : State, ∃ t, step s = .next t)

/-- Rules R47, R49: the words standing behind a command have no part in its step: appending words to `CQ` before or
after a step that takes a command comes to the same. -/
def Obligations.StepIgnoresLaterWords : Prop :=
  ∀ (s t : State) (ws : List Word), s.idle = false → s.waiting = false → step s = .next t →
    step (s.append ws) = .next (t.append ws)

/-- Rules R53, R210: from every state the engine is idle or waits for payload after at most as many steps as there are
words in `CQ`. -/
def Obligations.EveryRunEnds : Prop :=
  ∀ s : State, ∃ k ≤ s.cq.length, ∃ t, Host.Core.run Sys2Proof.core k s = .next t ∧
    (t.idle = true ∨ t.waiting = true)

/-! ### Invariants and whole-machine rules -/

/-- Rules R24, R25, R28: every step keeps the invariant, whose canonical form of the key table is the model's own
(log entry 3). -/
def Obligations.StepKeepsInvariant : Prop :=
  ∀ s t : State, EngineInv s → step s = .next t → EngineInv t

/-- Rules R31, R200: the state after reset meets the invariant, for all legal parameters; the parameters of
`State.reset` are the model's choice (log entry 2). -/
def Obligations.ResetMeetsInvariant : Prop :=
  (∀ p : Params, Config.legal p = true → EngineInv (State.resetWith p)) ∧ EngineInv State.reset

/-- Rule R50: every event (a step, an appended word, a response word taken, a reset) keeps the invariant, so it holds
throughout every run from reset. -/
def Obligations.EveryRunKeepsInvariant : Prop :=
  (∀ (e : Event) (s t : State), EngineInv s → happen e s = some t → EngineInv t) ∧
  (∀ (es : List Event) (p : Params) (t : State), Config.legal p = true →
    happenAll es (State.resetWith p) = some t → EngineInv t)

/-- Rule R52, with the response lengths of rules R71 and R72 (log entry 15): `RQ` stays a sequence of whole responses: if it can be cut by its headers before a step, it can be cut
after it, into the same responses and at most one more behind them. -/
def Obligations.StepKeepsResponseFraming : Prop :=
  ∀ (s t : State) (rs : List (List Word)), cutResponses s.rq.length s.rq = some rs → step s = .next t →
    ∃ more, more.length ≤ 1 ∧ cutResponses t.rq.length t.rq = some (rs ++ more)

/-- Rules R52, R71, R72: only `RDR` and `RDS` append to `RQ`, and each appends one whole response whose header repeats
its opcode; a step that enters or stays in the fault state emits nothing unless it executes `RDS`. The number of words
behind an `RDR` header is the header's low half; that one word follows an `RDS` header is rule R72's, against rule R52's
general clause (log entry 15). -/
def Obligations.StepEmitsAtMostOneResponse : Prop :=
  ∀ s t : State, step s = .next t → t.rq = s.rq ∨
    ∃ r i rest, t.rq = s.rq ++ r ∧ isResponse r = true ∧ decode s.cq = .command i rest ∧
      (((∃ ra, i = .rdr ra) ∧ r.head?.map opField = some 0x04#8 ∧ t.status.flt = false) ∨
        (i = .rds ∧ r.head?.map opField = some 0x20#8))

/-- Rule R20, the columns 'written by' and 'read by': which commands may change which state. -/
def Obligations.CommandsChangeOnlyTheirState : Prop :=
  ∀ (i : Instr) (s t : State), exec i s = .next t →
    (¬ SameRegs s t → mnemonicOf i ∈ ["LDS", "LDI", "MOV", "KLD", "MVA", "GCD", "INV", "MULM", "RST"]) ∧
    (t.acc ≠ s.acc → mnemonicOf i ∈ ["ACLR", "MACB", "RST"]) ∧
    (¬ SameKeys s t → mnemonicOf i ∈ ["KST", "RST"]) ∧
    (t.status.cp ≠ s.status.cp → mnemonicOf i ∈ ["GCD", "RST"]) ∧
    (t.rq ≠ s.rq → mnemonicOf i ∈ ["RDR", "RDS"]) ∧
    (t.fcmd ≠ s.fcmd ∨ t.status.cause ≠ s.status.cause ∨ t.status.flt ≠ s.status.flt →
      t.status.flt = true ∨ mnemonicOf i ∈ ["CLRF", "RST"]) ∧
    t.cq = s.cq ∧ t.params = s.params

/-- Rules R171, R172, the table of faults with its priorities: which command raises what, and when; the cause recorded
is that code, and the word recorded is the command word. With `KT_SIZE = 65536` `KeyRange` cannot occur; with
`MAXBITS = ∞` `Capacity` can occur only in `RDR`. -/
def Obligations.FaultTable : Prop :=
  (∀ (i : Instr) (s t : State), EngineInv s → s.status.flt = false → exec i s = .next t →
    t.status.cause = (match i with
      | .nop => 0#4
      | .lds _ _ => 0#4
      | .ldi _ payload => if fits s.params (limbsValue payload) = true then 0#4 else 5#4
      | .mov _ _ => 0#4
      | .rdr ra => if 65535 < nlimbs (s.reg ra) then 5#4 else 0#4
      | .kst _ idx => if s.params.ktSize ≤ idx.toNat then 4#4 else 0#4
      | .kld _ idx => if s.params.ktSize ≤ idx.toNat then 4#4 else 0#4
      | .mva _ => 0#4
      | .gcd _ _ _ => 0#4
      | .inv _ rw rm =>
        if s.reg rm < 2 then 2#4 else if Nat.gcd (s.reg rm) (s.reg rw) = 1 then 0#4 else 3#4
      | .mulm _ _ _ rm => if s.reg rm = 0 then 2#4 else 0#4
      | .aclr => 0#4
      | .macb idx bit =>
        if s.params.ktSize ≤ idx.toNat then 4#4
        else if fits s.params (s.acc + if bit then s.ktRead idx.toNat else 0) = true then 0#4 else 5#4
      | .rds => 0#4
      | .clrf => 0#4
      | .rst => 0#4) ∧
    (t.status.cause ≠ 0#4 → t.status.flt = true ∧ t.fcmd = encodeHead i)) ∧
  (∀ (s : State) (w : Word) (rest : List Word) (e : DecodeError), s.status.flt = false → s.cq = w :: rest →
    decodeHead w = .error e → ∃ t, step s = .next t ∧ t.status.cause = 1#4 ∧ t.fcmd = w) ∧
  (∀ (i : Instr) (s t : State), exec i s = .next t → s.status.flt = false → t.status.flt = true →
    (s.params.ktSize = 65536 → t.status.cause ≠ 4#4) ∧
    (s.params.maxBits = none → t.status.cause = 5#4 → ∃ ra, i = .rdr ra))

/-! ### Data movement -/

/-- Rule R90: the word `0x00000000` is `NOP`, which leaves everything unchanged. -/
def Obligations.NopChangesNothing : Prop := WordOf 0x00000000#32 .nop ∧ ∀ s : State, exec .nop s = .next s

/-- Rule R91: `LDS`, its word, and that it loads its zero-extended immediate and changes nothing else. That it fits
at every legal `MAXBITS` the rule marks `[derived: from 00_scope.md rule R6 and 10_state.md rule R28]`; here it is proved
from the premise that the parameters are legal. -/
def Obligations.LdsLoadsTheImmediate : Prop :=
  ∀ (rd : Reg) (imm : BitVec 16),
    WordOf (iWord 0x01 rd.val 0 imm.toNat) (.lds rd imm) ∧
    ∀ s : State, Config.legal s.params = true →
      ∃ t, exec (.lds rd imm) s = .next t ∧ WritesReg rd imm.toNat s t

/-- Rule R92: `LDI`, its words, and that it loads the sum of `p[k] · 2^(32·k)` when that fits and changes nothing else;
when it does not fit, `LDI` raises `Capacity` with its command word. -/
def Obligations.LdiLoadsThePayloadValue : Prop :=
  ∀ (rd : Reg) (payload : List Word), payload.length ≤ 65535 →
    (∀ rest, decode (iWord 0x02 rd.val 0 payload.length :: (payload ++ rest)) = .command (.ldi rd payload) rest) ∧
    ∀ (s : State) (v : Nat),
      v = ((List.range payload.length).map fun k => (payload.getD k 0).toNat * 2 ^ (32 * k)).sum →
      (fits s.params v = true → ∃ t, exec (.ldi rd payload) s = .next t ∧ WritesReg rd v s t) ∧
      (fits s.params v = false → ∃ t, exec (.ldi rd payload) s = .next t ∧
        EntersFault 5#4 (iWord 0x02 rd.val 0 payload.length) s t)

/-- Rule R93: `MOV`, its word, and that it copies a register and changes nothing else. -/
def Obligations.MovCopiesTheRegister : Prop :=
  ∀ rd ra : Reg,
    WordOf (rWord 0x03 rd.val ra.val 0 0) (.mov rd ra) ∧
    ∀ s : State, fits s.params (s.reg ra) = true →
      ∃ t, exec (.mov rd ra) s = .next t ∧ WritesReg rd (s.reg ra) s t

/-- Rules R71, R94: `RDR`, its word, and that it appends the header `0x04000000 + L` and the `L = nlimbs(v)` limbs of
the register, and changes nothing else; above 65535 limbs it raises `Capacity` and emits nothing. -/
def Obligations.RdrSendsTheRegister : Prop :=
  ∀ ra : Reg,
    WordOf (rWord 0x04 0 ra.val 0 0) (.rdr ra) ∧
    ∀ s : State,
      (nlimbs (s.reg ra) ≤ 65535 → ∃ t, exec (.rdr ra) s = .next t ∧
        Emits (BitVec.ofNat 32 (0x04000000 + nlimbs (s.reg ra)) ::
          (List.range (nlimbs (s.reg ra))).map fun k => BitVec.ofNat 32 (s.reg ra / 2 ^ (32 * k))) s t) ∧
      (65535 < nlimbs (s.reg ra) →
        ∃ t, exec (.rdr ra) s = .next t ∧ EntersFault 5#4 (rWord 0x04 0 ra.val 0 0) s t)

/-- Rule R95: `KST`, its word, and that it replaces the whole entry at a legal index and changes nothing else; an index
that does not exist raises `KeyRange`. The premise `EngineInv` also asks for the canonical form of the model's own
representation of the key table (log entry 3). -/
def Obligations.KstStoresTheRegister : Prop :=
  ∀ (ra : Reg) (idx : BitVec 16),
    WordOf (iWord 0x05 ra.val 0 idx.toNat) (.kst ra idx) ∧
    ∀ s : State, EngineInv s →
      (idx.toNat < s.params.ktSize → ∃ t, exec (.kst ra idx) s = .next t ∧ WritesKey idx.toNat (s.reg ra) s t) ∧
      (s.params.ktSize ≤ idx.toNat →
        ∃ t, exec (.kst ra idx) s = .next t ∧ EntersFault 4#4 (iWord 0x05 ra.val 0 idx.toNat) s t)

/-- Rule R96: `KLD`, its word, and that it loads the entry at a legal index and changes nothing else; an index that does
not exist raises `KeyRange`. -/
def Obligations.KldLoadsTheEntry : Prop :=
  ∀ (rd : Reg) (idx : BitVec 16),
    WordOf (iWord 0x06 rd.val 0 idx.toNat) (.kld rd idx) ∧
    ∀ s : State,
      (idx.toNat < s.params.ktSize → fits s.params (s.ktRead idx.toNat) = true →
        ∃ t, exec (.kld rd idx) s = .next t ∧ WritesReg rd (s.ktRead idx.toNat) s t) ∧
      (s.params.ktSize ≤ idx.toNat →
        ∃ t, exec (.kld rd idx) s = .next t ∧ EntersFault 4#4 (iWord 0x06 rd.val 0 idx.toNat) s t)

/-- Rule R97: `MVA`, its word, and that it copies the accumulator, which it does not clear, and changes nothing else. -/
def Obligations.MvaCopiesTheAccumulator : Prop :=
  ∀ rd : Reg,
    WordOf (rWord 0x07 rd.val 0 0 0) (.mva rd) ∧
    ∀ s : State, fits s.params s.acc = true → ∃ t, exec (.mva rd) s = .next t ∧ WritesReg rd s.acc s t

/-! ### Euclidean commands -/

/-- Rule R101: `GCD`, its word, and that it writes a common divisor that every common divisor divides, sets `CP` exactly
when it is 1, and changes nothing else. -/
def Obligations.GcdWritesDivisorAndCoprimeFlag : Prop :=
  ∀ rd ra rb : Reg,
    WordOf (rWord 0x10 rd.val ra.val rb.val 0) (.gcd rd ra rb) ∧
    ∀ s : State, fits s.params (s.reg ra) = true → fits s.params (s.reg rb) = true →
      ∃ t g, exec (.gcd rd ra rb) s = .next t ∧ t.reg rd = g ∧
        g ∣ s.reg ra ∧ g ∣ s.reg rb ∧ (∀ d, d ∣ s.reg ra → d ∣ s.reg rb → d ∣ g) ∧
        (t.status.cp = true ↔ g = 1) ∧
        SameRegsBut rd s t ∧ t.acc = s.acc ∧ SameKeys s t ∧ t.status.flt = s.status.flt ∧
        t.status.cause = s.status.cause ∧ t.fcmd = s.fcmd ∧ SameStreams s t

/-- Rule R107: `INV`, its word, and that with `m ≥ 2` and `gcd(m, w) = 1` it writes the unique `x` in `[0, m)` with
`(w · x) mod m = 1` and changes nothing else; a modulus of 0 or 1 raises `ModRange` whatever the number is, and a pair
that is not coprime raises `NotCoprime`. -/
def Obligations.InvWritesTheInverse : Prop :=
  ∀ rd rw rm : Reg,
    WordOf (rWord 0x11 rd.val rw.val 0 rm.val) (.inv rd rw rm) ∧
    ∀ s : State,
      (fits s.params (s.reg rm) = true → 2 ≤ s.reg rm → Nat.gcd (s.reg rm) (s.reg rw) = 1 →
        ∃ t x, exec (.inv rd rw rm) s = .next t ∧ WritesReg rd x s t ∧ x < s.reg rm ∧
          s.reg rw * x % s.reg rm = 1 ∧ ∀ y, y < s.reg rm → s.reg rw * y % s.reg rm = 1 → y = x) ∧
      (s.reg rm < 2 →
        ∃ t, exec (.inv rd rw rm) s = .next t ∧ EntersFault 2#4 (rWord 0x11 rd.val rw.val 0 rm.val) s t) ∧
      (2 ≤ s.reg rm → Nat.gcd (s.reg rm) (s.reg rw) ≠ 1 →
        ∃ t, exec (.inv rd rw rm) s = .next t ∧ EntersFault 3#4 (rWord 0x11 rd.val rw.val 0 rm.val) s t)

/-- Rule R100, whose values at a zero argument and recurrence the spec marks as from general knowledge: the gcd divides both, is the largest number that does, is symmetric, has the stated values at a zero
argument, and is the last nonzero term of the Euclidean remainder sequence. -/
def Obligations.GcdIsTheLastRemainder : Prop :=
  ∀ a b : Nat, gcdOf a b ∣ a ∧ gcdOf a b ∣ b ∧ (∀ d, 0 < a + b → d ∣ a → d ∣ b → d ≤ gcdOf a b) ∧
    gcdOf a b = gcdOf b a ∧ gcdOf a 0 = a ∧ gcdOf 0 a = a ∧ gcdOf a b = remainderSeq (b + 1) a b

/-- Rules R102, R104: for every coprime pair with `m ≥ 2` the reference algorithm of rule R104, which the model computes
`INV` with by choice (log entry 7), returns an `x` in `[0, m)` with `(x · w) mod m = 1`, from a coefficient that belongs to a Bézout
identity (a comment of rule R104's pseudocode). -/
def Obligations.ReferenceAlgorithmComputesTheInverse : Prop :=
  ∀ m w : Nat, 2 ≤ m → Nat.gcd m w = 1 →
    inverse m w < m ∧ inverse m w * w % m = 1 ∧ ∃ u : Int, u * m + bezoutCoef m w * w = 1

/-- Rule R103: the inverse is the unique `x` in `[0, m)` with `(w · x) mod m = 1`, and the consequences the rule lists,
which the spec marks `[derived: from rule R102]`. -/
def Obligations.InverseIsUnique : Prop :=
  ∀ m w : Nat, 2 ≤ m → Nat.gcd m w = 1 →
    inverse m w < m ∧ w * inverse m w % m = 1 ∧ (∀ x, x < m → w * x % m = 1 → x = inverse m w) ∧
    1 ≤ inverse m w ∧ inverse m w = inverse m (w % m) ∧ inverse m 1 = 1 ∧ inverse m (m - 1) = m - 1 ∧
    inverse m (inverse m w) = w % m

/-- Rule R105, marked `[derived: from 00_scope.md rule R9]`: the source's normalisation equals `emod` under the floored
and under the truncated meaning of `mod`. -/
def Obligations.NormalisationFormula : Prop :=
  ∀ (z : Int) (m : Nat), 1 ≤ m →
    (emod z m : Int) = Int.fmod (Int.fmod z m + m) m ∧ (emod z m : Int) = Int.tmod (Int.tmod z m + m) m

/-- Rule R106, marked `[derived: from rule R103]`: every Bézout coefficient for `w` normalises to the inverse, and so does the one that forward gcd and
back-substitution find. -/
def Obligations.AnyBezoutCoefficientGivesTheInverse : Prop :=
  ∀ m w : Nat, 2 ≤ m → Nat.gcd m w = 1 →
    (∀ u t : Int, u * m + t * w = 1 → emod t m = inverse m w) ∧ inverseByBackSubstitution m w = inverse m w

/-! ### Modular multiplier and accumulator -/

/-- Rule R121: the modular product lies in `[0, m)`, is the exact product less a multiple of `m`, is symmetric, and (which
the spec marks `[derived: from 00_scope.md rule R9]`) does not depend on whether its operands are reduced. -/
def Obligations.ModularProductIsExact : Prop :=
  ∀ a b m : Nat, 1 ≤ m →
    mulmod a b m < m ∧ (∃ q, a * b = q * m + mulmod a b m) ∧ mulmod a b m = mulmod b a m ∧
    mulmod a b m = mulmod (a % m) (b % m) m

/-- Rule R122: `MULM`, its word, and that it writes the exact product reduced once, for factors of any size, and changes
nothing else; modulus 0 raises `ModRange`. -/
def Obligations.MulmWritesTheProduct : Prop :=
  ∀ rd ra rb rm : Reg,
    WordOf (rWord 0x12 rd.val ra.val rb.val rm.val) (.mulm rd ra rb rm) ∧
    ∀ s : State,
      (fits s.params (s.reg rm) = true → s.reg rm ≠ 0 →
        ∃ t, exec (.mulm rd ra rb rm) s = .next t ∧ WritesReg rd (s.reg ra * s.reg rb % s.reg rm) s t) ∧
      (s.reg rm = 0 →
        ∃ t, exec (.mulm rd ra rb rm) s = .next t ∧ EntersFault 2#4 (rWord 0x12 rd.val ra.val rb.val rm.val) s t)

/-- Rule R124: the word `0x18000000` is `ACLR`, which sets the accumulator to 0 and changes nothing else. -/
def Obligations.AclrClearsTheAccumulator : Prop :=
  WordOf 0x18000000#32 .aclr ∧ ∀ s : State, ∃ t, exec .aclr s = .next t ∧ WritesAcc 0 s t

/-- Rule R125: `MACB`, its word, and that with a legal index it adds the entry when its bit is 1 and nothing when it is
0, and changes nothing else; an index that does not exist raises `KeyRange` whatever the bit is, and before that a sum
that does not fit raises `Capacity`. -/
def Obligations.MacbAddsTheSelectedEntry : Prop :=
  ∀ (idx : BitVec 16) (bit : Bool),
    WordOf (iWord 0x19 0 bit.toNat idx.toNat) (.macb idx bit) ∧
    ∀ (s : State) (v : Nat), v = (if bit then s.acc + s.ktRead idx.toNat else s.acc) →
      (idx.toNat < s.params.ktSize → fits s.params v = true →
        ∃ t, exec (.macb idx bit) s = .next t ∧ WritesAcc v s t) ∧
      (idx.toNat < s.params.ktSize → fits s.params v = false →
        ∃ t, exec (.macb idx bit) s = .next t ∧ EntersFault 5#4 (iWord 0x19 0 bit.toNat idx.toNat) s t) ∧
      (s.params.ktSize ≤ idx.toNat →
        ∃ t, exec (.macb idx bit) s = .next t ∧ EntersFault 4#4 (iWord 0x19 0 bit.toNat idx.toNat) s t)

/-- Rule R127: outside the fault state, the words of `ACLR` and any `MACB` commands with legal indices, whose sum fits,
at the head of `CQ` leave the sum of the terms in the accumulator, and nothing else changed. -/
def Obligations.AccumulatorSequenceSums : Prop :=
  ∀ (s : State) (terms : List (BitVec 16 × Bool)) (rest : List Word) (v : Nat), s.status.flt = false →
    (∀ x ∈ terms, x.1.toNat < s.params.ktSize) →
    s.cq = encodeAll (.aclr :: terms.map fun x => .macb x.1 x.2) ++ rest →
    v = (terms.map fun x => if x.2 then s.ktRead x.1.toNat else 0).sum →
    fits s.params v = true →
    ∃ t, Host.Core.run Sys2Proof.core (terms.length + 1) s = .next t ∧ WritesAcc v (s.setCq rest) t

/-- Rules R74, R123, R126: the words of `SSUM rd, block` at the head of `CQ` make the engine, in as many steps as there
are commands, leave `Σ bit[j] · KT[j]` in `ACC` and in `b[rd]`, bit 0 being the leftmost. -/
def Obligations.SubsetSumOfABlock : Prop :=
  ∀ (s : State) (rd : Reg) (bits : List Bool) (rest : List Word) (v : Nat), EngineInv s → s.status.flt = false →
    bits.length ≤ s.params.ktSize → s.cq = encodeAll (ssumCommands rd bits) ++ rest →
    v = ((List.range bits.length).map fun j => if bits.getD j false then s.ktRead j else 0).sum →
    fits s.params v = true →
    ∃ t, Host.Core.run Sys2Proof.core (bits.length + 2) s = .next t ∧ t.acc = v ∧ t.reg rd = v ∧
      SameRegsBut rd s t ∧ SameKeys s t ∧ SameControl s t ∧ t.cq = rest ∧ t.rq = s.rq ∧ t.params = s.params

/-- Rule R156, the trapdoor identity, which the spec derives from rules R103, R121 and R123: the engine's product of a
cipher value, the sum of the selected public-key entries `(w · s[j]) mod m`, and the inverse is the sum of the selected
terms of the private sequence. -/
def Obligations.TrapdoorIdentity : Prop :=
  ∀ (m w c : Nat) (seq : List Nat) (bits : List Bool), 2 ≤ m → Nat.gcd m w = 1 → seq.sum < m →
    c = ((List.range seq.length).map fun j => if bits.getD j false then mulmod w (seq.getD j 0) m else 0).sum →
    mulmod c (inverse m w) m =
      ((List.range seq.length).map fun j => if bits.getD j false then seq.getD j 0 else 0).sum

/-! ### System commands and reset -/

/-- Rules R72, R140: the word `0x20000000` is `RDS`, which appends `0x20000000 + 16·CAUSE + 2·CP + FLT` and `FCMD`, in
every state, and changes nothing else. -/
def Obligations.RdsReportsTheStatus : Prop :=
  WordOf 0x20000000#32 .rds ∧
  ∀ s : State, ∃ t, exec .rds s = .next t ∧
    Emits [BitVec.ofNat 32 (0x20000000 + 16 * s.status.cause.toNat + 2 * s.status.cp.toNat + s.status.flt.toNat),
      s.fcmd] s t

/-- Rule R141: the word `0x21000000` is `CLRF`, which clears `FLT`, `CAUSE` and `FCMD`, in every state, and changes
nothing else; outside the fault state it changes nothing. -/
def Obligations.ClrfLeavesTheFaultState : Prop :=
  WordOf 0x21000000#32 .clrf ∧
  ∀ s : State, ∃ t, exec .clrf s = .next t ∧ t.status.flt = false ∧ t.status.cause = 0#4 ∧ t.fcmd = 0x00000000#32 ∧
    t.status.cp = s.status.cp ∧ SameRegs s t ∧ t.acc = s.acc ∧ SameKeys s t ∧ SameStreams s t ∧
    (EngineInv s → s.status.flt = false → t = s)

/-- Rule R142: the word `0x3F000000` is `RST`, which sets every number, `STATUS` and `FCMD` to 0, in every state, and
leaves both streams; inside an `LDI` payload it is data. -/
def Obligations.RstZeroisesAndKeepsTheStreams : Prop :=
  WordOf 0x3F000000#32 .rst ∧
  (∀ s : State, ∃ t, exec .rst s = .next t ∧ Zeroised t ∧ SameStreams s t) ∧
  (∀ (rd : Reg) (rest : List Word), decode (iWord 0x02 rd.val 0 1 :: 0x3F000000#32 :: rest) =
    .command (.ldi rd [0x3F000000#32]) rest)

/-- Rules R31, R200: hardware reset zeroises every number, `STATUS` and `FCMD` and empties both streams, from every
state: it leaves the state after reset, idle and with the fault line at 0; `RST` leaves the same with both streams as
they are. -/
def Obligations.HardwareResetLeavesTheResetState : Prop :=
  ∀ s : State, ∃ t, hostAct .reset s = some (.nothing, t) ∧ Zeroised t ∧ t.cq = [] ∧ t.rq = [] ∧
    t = State.resetWith s.params ∧ t.idle = true ∧ t.faultLine = false ∧
    exec .rst s = .next ((t.setCq s.cq).emit s.rq)

/-- Rules R50, R178: the four host actions: a word joins the tail of `CQ`; the head of `RQ`, when there is one, is
handed to the host; reset leaves the reset state of the same parameters (rule R200); observing shows `STATUS.FLT`. -/
def Obligations.HostActionsAreTheFour : Prop :=
  ∀ s : State,
    (∀ w, ∃ t, hostAct (.append w) s = some (.nothing, t) ∧ t.cq = s.cq ++ [w] ∧ t.rq = s.rq ∧ SameRegs s t ∧
      t.acc = s.acc ∧ SameKeys s t ∧ SameControl s t) ∧
    (s.rq = [] → hostAct .take s = none) ∧
    (∀ w ws, s.rq = w :: ws → ∃ t, hostAct .take s = some (.word w, t) ∧ t.rq = ws ∧ t.cq = s.cq ∧ SameRegs s t ∧
      t.acc = s.acc ∧ SameKeys s t ∧ SameControl s t) ∧
    hostAct .reset s = some (.nothing, State.resetWith s.params) ∧
    hostAct .observe s = some (.line s.status.flt, s)

/-! ### Numbers on the streams, and the host's sequences -/

/-- Rules R9, R44, R71: the limbs of a number are canonical and read back as the number, and most-significant zero limbs
change nothing. -/
def Obligations.LimbsReadBack : Prop :=
  ∀ v : Nat, (limbs v).length = nlimbs v ∧ limbsValue (limbs v) = v ∧ (∀ l, (limbs v).getLast? = some l → l ≠ 0) ∧
    (∀ (ws : List Word) (k : Nat), limbsValue (ws ++ List.replicate k 0) = limbsValue ws)

/-- Rule R44: outside the fault state, a number sent in by `LDI`, canonical or not, comes back from `RDR` as its canonical
limbs: exactly `nlimbs(v)` of them, the last one not zero. -/
def Obligations.LdiThenRdrReturnsTheNumber : Prop :=
  ∀ (r : Reg) (payload rest : List Word) (s : State), s.status.flt = false → payload.length ≤ 65535 →
    s.cq = encodeAll [.ldi r payload, .rdr r] ++ rest → fits s.params (limbsValue payload) = true →
    ∃ t ls, Host.Core.run Sys2Proof.core 2 s = .next t ∧ t.cq = rest ∧
      t.rq = s.rq ++ BitVec.ofNat 32 (0x04000000 + ls.length) :: ls ∧ limbsValue ls = limbsValue payload ∧
      ls.length = nlimbs (limbsValue payload) ∧ ∀ l, ls.getLast? = some l → l ≠ 0

/-- Rule R74: `LDV` loads any number that fits, and is an assembly error exactly when the number needs more than 65535
limbs. -/
def Obligations.LdvLoadsTheValue : Prop :=
  ∀ (rd : Reg) (value : Nat),
    (ldv rd value = none ↔ 65535 < nlimbs value) ∧
    (∀ (i : Instr) (s : State), ldv rd value = some i → fits s.params value = true →
      i.WellFormed = true ∧ ∃ t, exec i s = .next t ∧ WritesReg rd value s t)

/-- Rule R151: the words of one attempt of the multiplier search at the head of `CQ`, outside the fault state, answer in
bit 1 of the status word whether the candidate is coprime to the modulus in `b0`. -/
def Obligations.SearchAttemptAnswersCoprime : Prop :=
  ∀ (s : State) (w : Nat) (is : List Instr) (rest : List Word), EngineInv s → s.status.flt = false →
    fits s.params w = true → searchAttempt w = some is → s.cq = encodeAll is ++ rest →
    ∃ t, Host.Core.run Sys2Proof.core is.length s = .next t ∧ t.cq = rest ∧
      t.rq = s.rq ++ [if Nat.gcd (s.reg 0) w = 1 then 0x20000002#32 else 0x20000000#32, 0x00000000#32] ∧
      t.reg 0 = s.reg 0 ∧ t.reg 1 = w

/-- Rule R153: the words for one public-key entry at the head of `CQ`, outside the fault state, leave
`KT[i] = (w · s[i]) mod m` and every other entry as it was. -/
def Obligations.PublicKeyEntryIsStored : Prop :=
  ∀ (s : State) (term : Nat) (i : BitVec 16) (is : List Instr) (rest : List Word), EngineInv s →
    s.status.flt = false → s.reg 0 ≠ 0 → fits s.params term = true → i.toNat < s.params.ktSize →
    publicKeyEntry term i = some is → s.cq = encodeAll is ++ rest →
    ∃ t, Host.Core.run Sys2Proof.core is.length s = .next t ∧ t.cq = rest ∧ t.rq = s.rq ∧
      t.ktRead i.toNat = s.reg 1 * term % s.reg 0 ∧ SameKeysBut i.toNat s t ∧
      t.reg 0 = s.reg 0 ∧ t.reg 1 = s.reg 1 ∧ t.reg 3 = s.reg 3 ∧ SameControl s t

/-- Rule R155: the words for the first step of decryption at the head of `CQ`, outside the fault state, leave
`(c · w⁻¹) mod m` in `b7` and send it. -/
def Obligations.DecryptFirstStepReduces : Prop :=
  ∀ (s : State) (c : Nat) (is : List Instr) (rest : List Word), EngineInv s → s.status.flt = false → s.reg 0 ≠ 0 →
    nlimbs (s.reg 0) ≤ 65535 → fits s.params c = true → decryptFirstStep c = some is →
    s.cq = encodeAll is ++ rest →
    ∃ t ls, Host.Core.run Sys2Proof.core is.length s = .next t ∧ t.cq = rest ∧
      t.reg 7 = c * s.reg 3 % s.reg 0 ∧
      t.rq = s.rq ++ BitVec.ofNat 32 (0x04000000 + ls.length) :: ls ∧ limbsValue ls = c * s.reg 3 % s.reg 0

/-! ### The two functions the statements above are written with -/

/-- Rules R9, R28: the capacity check lets a number pass exactly when `MAXBITS` is `∞` or the number is below
`2^MAXBITS`; the bit length is 0 for 0 and else the `k` with `2^(k-1) ≤ v < 2^k`; and `nlimbs(v)` limbs of 32 bits hold
`v` while fewer do not. -/
def Obligations.CapacityCheckIsBitLength : Prop :=
  (∀ (p : Params) (v : Nat), p.maxBits = none → fits p v = true) ∧
  (∀ (p : Params) (v n : Nat), p.maxBits = some n → (fits p v = true ↔ v < 2 ^ n)) ∧
  bitlen 0 = 0 ∧ (∀ v : Nat, 0 < v → 2 ^ (bitlen v - 1) ≤ v ∧ v < 2 ^ bitlen v) ∧
  (∀ v l : Nat, v < 2 ^ (32 * l) ↔ nlimbs v ≤ l)

/-- Rule R123: `ssum(bit, pk)` is the sum of `bit[j] · pk[j]` over the indices of the block, and 0 when no bit is 1. -/
def Obligations.SubsetSumIsTheSum : Prop :=
  ∀ (bits : List Bool) (pk : List Nat), bits.length = pk.length →
    ssum bits pk = ((List.range pk.length).map fun j => if bits.getD j false then pk.getD j 0 else 0).sum ∧
    ((∀ b ∈ bits, b = false) → ssum bits pk = 0)
end

