-- ==== Sys2Proof/Laws/Encoding.lean ====
section
/-! SUPPORT. The fields of an encoded word, and a word from its fields (rules R61, R62). -/
namespace Sys2Proof

/-- Concatenation as a number. -/
theorem toNat_concat {n m : Nat} (x : BitVec n) (y : BitVec m) : (x ++ y).toNat = x.toNat * 2 ^ m + y.toNat := by
  rw [BitVec.toNat_append, Nat.shiftLeft_eq, Nat.mul_comm, Nat.two_pow_add_eq_or_of_lt y.isLt]

theorem rFormat_toNat (op : BitVec 8) (rd ra rb rm : BitVec 4) :
    (rFormat op rd ra rb rm).toNat =
      op.toNat * 2 ^ 24 + rd.toNat * 2 ^ 20 + ra.toNat * 2 ^ 16 + rb.toNat * 2 ^ 12 + rm.toNat * 2 ^ 8 := by
  refine (toNat_concat (op ++ rd ++ ra ++ rb ++ rm) 0#8).trans ?_
  simp only [toNat_concat, BitVec.toNat_ofNat]
  omega

theorem iFormat_toNat (op : BitVec 8) (r f : BitVec 4) (imm : BitVec 16) :
    (iFormat op r f imm).toNat = op.toNat * 2 ^ 24 + r.toNat * 2 ^ 20 + f.toNat * 2 ^ 16 + imm.toNat := by
  refine (toNat_concat (op ++ r ++ f) imm).trans ?_
  simp only [toNat_concat]
  omega

/-- A field of a word as a number. -/
theorem field_toNat (w : Word) (lo len : Nat) : (w.extractLsb' lo len).toNat = w.toNat / 2 ^ lo % 2 ^ len := by
  rw [BitVec.extractLsb'_toNat, Nat.shiftRight_eq_div_pow]

theorem bitField_eq (w : Word) : bitField w = decide (w.toNat / 2 ^ 16 % 2 = 1) := by
  simp [bitField, BitVec.getLsbD, Nat.testBit_eq_decide_div_mod_eq]

@[simp] theorem opField_rFormat (op : BitVec 8) (rd ra rb rm : BitVec 4) : opField (rFormat op rd ra rb rm) = op := by
  apply BitVec.eq_of_toNat_eq
  rw [opField, field_toNat, rFormat_toNat]; omega
@[simp] theorem rdField_rFormat (op : BitVec 8) (rd ra rb rm : BitVec 4) : rdField (rFormat op rd ra rb rm) = rd := by
  apply BitVec.eq_of_toNat_eq
  rw [rdField, field_toNat, rFormat_toNat]; omega
@[simp] theorem raField_rFormat (op : BitVec 8) (rd ra rb rm : BitVec 4) : raField (rFormat op rd ra rb rm) = ra := by
  apply BitVec.eq_of_toNat_eq
  rw [raField, field_toNat, rFormat_toNat]; omega
@[simp] theorem rbField_rFormat (op : BitVec 8) (rd ra rb rm : BitVec 4) : rbField (rFormat op rd ra rb rm) = rb := by
  apply BitVec.eq_of_toNat_eq
  rw [rbField, field_toNat, rFormat_toNat]; omega
@[simp] theorem rmField_rFormat (op : BitVec 8) (rd ra rb rm : BitVec 4) : rmField (rFormat op rd ra rb rm) = rm := by
  apply BitVec.eq_of_toNat_eq
  rw [rmField, field_toNat, rFormat_toNat]; omega
@[simp] theorem zField_rFormat (op : BitVec 8) (rd ra rb rm : BitVec 4) : zField (rFormat op rd ra rb rm) = 0 := by
  apply BitVec.eq_of_toNat_eq
  rw [zField, field_toNat, rFormat_toNat]; simp; omega

@[simp] theorem opField_iFormat (op : BitVec 8) (r f : BitVec 4) (imm : BitVec 16) : opField (iFormat op r f imm) = op := by
  apply BitVec.eq_of_toNat_eq
  rw [opField, field_toNat, iFormat_toNat]; omega
@[simp] theorem rdField_iFormat (op : BitVec 8) (r f : BitVec 4) (imm : BitVec 16) : rdField (iFormat op r f imm) = r := by
  apply BitVec.eq_of_toNat_eq
  rw [rdField, field_toNat, iFormat_toNat]; omega
@[simp] theorem raField_iFormat (op : BitVec 8) (r f : BitVec 4) (imm : BitVec 16) : raField (iFormat op r f imm) = f := by
  apply BitVec.eq_of_toNat_eq
  rw [raField, field_toNat, iFormat_toNat]; omega
@[simp] theorem immField_iFormat (op : BitVec 8) (r f : BitVec 4) (imm : BitVec 16) :
    immField (iFormat op r f imm) = imm := by
  apply BitVec.eq_of_toNat_eq
  rw [immField, field_toNat, iFormat_toNat]; omega

theorem bitFlag_toNat (bit : Bool) : (bitFlag bit).toNat = if bit then 1 else 0 := by cases bit <;> rfl

@[simp] theorem fHighField_macb (op : BitVec 8) (r : BitVec 4) (bit : Bool) (imm : BitVec 16) :
    fHighField (iFormat op r (bitFlag bit) imm) = 0 := by
  apply BitVec.eq_of_toNat_eq
  rw [fHighField, field_toNat, iFormat_toNat, bitFlag_toNat]
  cases bit <;> simp <;> omega

@[simp] theorem bitField_macb (op : BitVec 8) (r : BitVec 4) (bit : Bool) (imm : BitVec 16) :
    bitField (iFormat op r (bitFlag bit) imm) = bit := by
  rw [bitField_eq, iFormat_toNat, bitFlag_toNat]
  cases bit <;> simp <;> omega

theorem regBits_toNat (r : Reg) : (regBits r).toNat = r.val := by
  simp only [regBits, BitVec.toNat_ofNat]; omega

/-- A register field written by the encoder names that register. -/
@[simp] theorem withReg_regBits (r : Reg) (k : Reg → Except DecodeError Head) : withReg (regBits r) k = k r := by
  have h := regBits_toNat r
  simp [withReg, h]

/-- The register field that names a register. -/
theorem withReg_ok {field : BitVec 4} {k : Reg → Except DecodeError Head} {x : Head} (h : withReg field k = .ok x) :
    ∃ r, field = regBits r ∧ k r = .ok x := by
  unfold withReg at h
  split at h
  · rename_i hlt
    exact ⟨⟨field.toNat, hlt⟩, BitVec.eq_of_toNat_eq (by rw [regBits_toNat]), h⟩
  · cases h

/-- The two ways a conditional can have a value; it takes the decoder's chain of opcodes apart one at a time. -/
theorem ite_eq_cases {α : Type} {c : Prop} [Decidable c] {a b x : α} (h : (if c then a else b) = x) :
    c ∧ a = x ∨ ¬c ∧ b = x := by
  by_cases hc : c
  · exact .inl ⟨hc, by rwa [if_pos hc] at h⟩
  · exact .inr ⟨hc, by rwa [if_neg hc] at h⟩

/-- A must-be-zero condition that let a decoding pass holds. -/
theorem needZero_ok {ok : Bool} {rest : Except DecodeError Head} {x : Head} (h : needZero ok rest = .ok x) :
    ok = true ∧ rest = .ok x := by
  unfold needZero at h
  split at h
  · exact ⟨‹_›, h⟩
  · cases h

/-- A word is the R-format of its own fields when `z` is zero (rule R61). -/
theorem eq_rFormat (w : Word) (h : zField w = 0) : w = rFormat (opField w) (rdField w) (raField w) (rbField w) (rmField w) := by
  apply BitVec.eq_of_toNat_eq
  have hz := congrArg BitVec.toNat h
  rw [zField, field_toNat] at hz
  rw [rFormat_toNat]
  simp only [opField, rdField, raField, rbField, rmField, field_toNat]
  have := w.isLt
  simp at hz
  omega

/-- A word is the I-format of its own fields (rule R62). -/
theorem eq_iFormat (w : Word) : w = iFormat (opField w) (rdField w) (raField w) (immField w) := by
  apply BitVec.eq_of_toNat_eq
  rw [iFormat_toNat]
  simp only [opField, rdField, raField, immField, field_toNat]
  have := w.isLt
  omega

/-- The flag field of a `MACB` word whose `f[3:1]` is zero. -/
theorem raField_eq_bitFlag (w : Word) (h : fHighField w = 0) : raField w = bitFlag (bitField w) := by
  apply BitVec.eq_of_toNat_eq
  have hz := congrArg BitVec.toNat h
  rw [fHighField, field_toNat] at hz
  rw [bitFlag_toNat, bitField_eq, raField, field_toNat]
  simp at hz
  split <;> rename_i hb <;> simp at hb <;> omega

end Sys2Proof
end

