-- ==== Sys2Proof/Laws/State.lean ====
section
/-! SUPPORT. One lemma per field per update: what each named update of the state leaves in each field. -/
namespace Sys2Proof.Machine

/-! ### setReg -/

@[simp] theorem setReg_acc (s : State) (r : Reg) (v : Nat) : (s.setReg r v).acc = s.acc := rfl
@[simp] theorem setReg_kt (s : State) (r : Reg) (v : Nat) : (s.setReg r v).kt = s.kt := rfl
@[simp] theorem setReg_status (s : State) (r : Reg) (v : Nat) : (s.setReg r v).status = s.status := rfl
@[simp] theorem setReg_fcmd (s : State) (r : Reg) (v : Nat) : (s.setReg r v).fcmd = s.fcmd := rfl
@[simp] theorem setReg_cq (s : State) (r : Reg) (v : Nat) : (s.setReg r v).cq = s.cq := rfl
@[simp] theorem setReg_rq (s : State) (r : Reg) (v : Nat) : (s.setReg r v).rq = s.rq := rfl
@[simp] theorem setReg_params (s : State) (r : Reg) (v : Nat) : (s.setReg r v).params = s.params := rfl

/-! ### setAcc -/

@[simp] theorem setAcc_regs (s : State) (v : Nat) : (s.setAcc v).regs = s.regs := rfl
@[simp] theorem setAcc_acc (s : State) (v : Nat) : (s.setAcc v).acc = v := rfl
@[simp] theorem setAcc_kt (s : State) (v : Nat) : (s.setAcc v).kt = s.kt := rfl
@[simp] theorem setAcc_status (s : State) (v : Nat) : (s.setAcc v).status = s.status := rfl
@[simp] theorem setAcc_fcmd (s : State) (v : Nat) : (s.setAcc v).fcmd = s.fcmd := rfl
@[simp] theorem setAcc_cq (s : State) (v : Nat) : (s.setAcc v).cq = s.cq := rfl
@[simp] theorem setAcc_rq (s : State) (v : Nat) : (s.setAcc v).rq = s.rq := rfl
@[simp] theorem setAcc_params (s : State) (v : Nat) : (s.setAcc v).params = s.params := rfl

/-! ### ktSet -/

@[simp] theorem ktSet_regs (s : State) (idx v : Nat) : (s.ktSet idx v).regs = s.regs := rfl
@[simp] theorem ktSet_acc (s : State) (idx v : Nat) : (s.ktSet idx v).acc = s.acc := rfl
@[simp] theorem ktSet_kt (s : State) (idx v : Nat) : (s.ktSet idx v).kt = s.kt.write idx v := rfl
@[simp] theorem ktSet_status (s : State) (idx v : Nat) : (s.ktSet idx v).status = s.status := rfl
@[simp] theorem ktSet_fcmd (s : State) (idx v : Nat) : (s.ktSet idx v).fcmd = s.fcmd := rfl
@[simp] theorem ktSet_cq (s : State) (idx v : Nat) : (s.ktSet idx v).cq = s.cq := rfl
@[simp] theorem ktSet_rq (s : State) (idx v : Nat) : (s.ktSet idx v).rq = s.rq := rfl
@[simp] theorem ktSet_params (s : State) (idx v : Nat) : (s.ktSet idx v).params = s.params := rfl

/-! ### setCp -/

@[simp] theorem setCp_regs (s : State) (c : Bool) : (s.setCp c).regs = s.regs := rfl
@[simp] theorem setCp_acc (s : State) (c : Bool) : (s.setCp c).acc = s.acc := rfl
@[simp] theorem setCp_kt (s : State) (c : Bool) : (s.setCp c).kt = s.kt := rfl
@[simp] theorem setCp_status (s : State) (c : Bool) : (s.setCp c).status = s.status.withCp c := rfl
@[simp] theorem setCp_fcmd (s : State) (c : Bool) : (s.setCp c).fcmd = s.fcmd := rfl
@[simp] theorem setCp_cq (s : State) (c : Bool) : (s.setCp c).cq = s.cq := rfl
@[simp] theorem setCp_rq (s : State) (c : Bool) : (s.setCp c).rq = s.rq := rfl
@[simp] theorem setCp_params (s : State) (c : Bool) : (s.setCp c).params = s.params := rfl

/-! ### setCq -/

@[simp] theorem setCq_regs (s : State) (ws : List Word) : (s.setCq ws).regs = s.regs := rfl
@[simp] theorem setCq_acc (s : State) (ws : List Word) : (s.setCq ws).acc = s.acc := rfl
@[simp] theorem setCq_kt (s : State) (ws : List Word) : (s.setCq ws).kt = s.kt := rfl
@[simp] theorem setCq_status (s : State) (ws : List Word) : (s.setCq ws).status = s.status := rfl
@[simp] theorem setCq_fcmd (s : State) (ws : List Word) : (s.setCq ws).fcmd = s.fcmd := rfl
@[simp] theorem setCq_cq (s : State) (ws : List Word) : (s.setCq ws).cq = ws := rfl
@[simp] theorem setCq_rq (s : State) (ws : List Word) : (s.setCq ws).rq = s.rq := rfl
@[simp] theorem setCq_params (s : State) (ws : List Word) : (s.setCq ws).params = s.params := rfl

/-! ### append -/

@[simp] theorem append_regs (s : State) (ws : List Word) : (s.append ws).regs = s.regs := rfl
@[simp] theorem append_acc (s : State) (ws : List Word) : (s.append ws).acc = s.acc := rfl
@[simp] theorem append_kt (s : State) (ws : List Word) : (s.append ws).kt = s.kt := rfl
@[simp] theorem append_status (s : State) (ws : List Word) : (s.append ws).status = s.status := rfl
@[simp] theorem append_fcmd (s : State) (ws : List Word) : (s.append ws).fcmd = s.fcmd := rfl
@[simp] theorem append_cq (s : State) (ws : List Word) : (s.append ws).cq = s.cq ++ ws := rfl
@[simp] theorem append_rq (s : State) (ws : List Word) : (s.append ws).rq = s.rq := rfl
@[simp] theorem append_params (s : State) (ws : List Word) : (s.append ws).params = s.params := rfl

/-! ### emit -/

@[simp] theorem emit_regs (s : State) (ws : List Word) : (s.emit ws).regs = s.regs := rfl
@[simp] theorem emit_acc (s : State) (ws : List Word) : (s.emit ws).acc = s.acc := rfl
@[simp] theorem emit_kt (s : State) (ws : List Word) : (s.emit ws).kt = s.kt := rfl
@[simp] theorem emit_status (s : State) (ws : List Word) : (s.emit ws).status = s.status := rfl
@[simp] theorem emit_fcmd (s : State) (ws : List Word) : (s.emit ws).fcmd = s.fcmd := rfl
@[simp] theorem emit_cq (s : State) (ws : List Word) : (s.emit ws).cq = s.cq := rfl
@[simp] theorem emit_rq (s : State) (ws : List Word) : (s.emit ws).rq = s.rq ++ ws := rfl
@[simp] theorem emit_params (s : State) (ws : List Word) : (s.emit ws).params = s.params := rfl

/-! ### raise -/

@[simp] theorem raise_regs (s : State) (k : FaultKind) (w : Word) : (s.raise k w).regs = s.regs := rfl
@[simp] theorem raise_acc (s : State) (k : FaultKind) (w : Word) : (s.raise k w).acc = s.acc := rfl
@[simp] theorem raise_kt (s : State) (k : FaultKind) (w : Word) : (s.raise k w).kt = s.kt := rfl
@[simp] theorem raise_status (s : State) (k : FaultKind) (w : Word) : (s.raise k w).status = s.status.entered k := rfl
@[simp] theorem raise_fcmd (s : State) (k : FaultKind) (w : Word) : (s.raise k w).fcmd = w := rfl
@[simp] theorem raise_cq (s : State) (k : FaultKind) (w : Word) : (s.raise k w).cq = s.cq := rfl
@[simp] theorem raise_rq (s : State) (k : FaultKind) (w : Word) : (s.raise k w).rq = s.rq := rfl
@[simp] theorem raise_params (s : State) (k : FaultKind) (w : Word) : (s.raise k w).params = s.params := rfl

/-! ### clearFault -/

@[simp] theorem clearFault_regs (s : State) : (s.clearFault).regs = s.regs := rfl
@[simp] theorem clearFault_acc (s : State) : (s.clearFault).acc = s.acc := rfl
@[simp] theorem clearFault_kt (s : State) : (s.clearFault).kt = s.kt := rfl
@[simp] theorem clearFault_status (s : State) : (s.clearFault).status = s.status.returned := rfl
@[simp] theorem clearFault_fcmd (s : State) : (s.clearFault).fcmd = 0#32 := rfl
@[simp] theorem clearFault_cq (s : State) : (s.clearFault).cq = s.cq := rfl
@[simp] theorem clearFault_rq (s : State) : (s.clearFault).rq = s.rq := rfl
@[simp] theorem clearFault_params (s : State) : (s.clearFault).params = s.params := rfl

/-! ### clearAll -/

@[simp] theorem clearAll_regs (s : State) : (s.clearAll).regs = Vector.replicate 8 0 := rfl
@[simp] theorem clearAll_acc (s : State) : (s.clearAll).acc = 0 := rfl
@[simp] theorem clearAll_kt (s : State) : (s.clearAll).kt = [] := rfl
@[simp] theorem clearAll_status (s : State) : (s.clearAll).status = Status.clear := rfl
@[simp] theorem clearAll_fcmd (s : State) : (s.clearAll).fcmd = 0#32 := rfl
@[simp] theorem clearAll_cq (s : State) : (s.clearAll).cq = s.cq := rfl
@[simp] theorem clearAll_rq (s : State) : (s.clearAll).rq = s.rq := rfl
@[simp] theorem clearAll_params (s : State) : (s.clearAll).params = s.params := rfl

/-! ### hardwareReset -/

@[simp] theorem hardwareReset_regs (s : State) : (s.hardwareReset).regs = Vector.replicate 8 0 := rfl
@[simp] theorem hardwareReset_acc (s : State) : (s.hardwareReset).acc = 0 := rfl
@[simp] theorem hardwareReset_kt (s : State) : (s.hardwareReset).kt = [] := rfl
@[simp] theorem hardwareReset_status (s : State) : (s.hardwareReset).status = Status.clear := rfl
@[simp] theorem hardwareReset_fcmd (s : State) : (s.hardwareReset).fcmd = 0#32 := rfl
@[simp] theorem hardwareReset_cq (s : State) : (s.hardwareReset).cq = [] := rfl
@[simp] theorem hardwareReset_rq (s : State) : (s.hardwareReset).rq = [] := rfl
@[simp] theorem hardwareReset_params (s : State) : (s.hardwareReset).params = s.params := rfl

/-! ### Status.entered -/

@[simp] theorem entered_flt (st : Status) (k : FaultKind) : (st.entered k).flt = true := rfl
@[simp] theorem entered_cp (st : Status) (k : FaultKind) : (st.entered k).cp = st.cp := rfl
@[simp] theorem entered_cause (st : Status) (k : FaultKind) : (st.entered k).cause = causeCode k := rfl

/-! ### Status.returned -/

@[simp] theorem returned_flt (st : Status) : (st.returned).flt = false := rfl
@[simp] theorem returned_cp (st : Status) : (st.returned).cp = st.cp := rfl
@[simp] theorem returned_cause (st : Status) : (st.returned).cause = 0#4 := rfl

/-! ### Status.withCp -/

@[simp] theorem withCp_flt (st : Status) (c : Bool) : (st.withCp c).flt = st.flt := rfl
@[simp] theorem withCp_cp (st : Status) (c : Bool) : (st.withCp c).cp = c := rfl
@[simp] theorem withCp_cause (st : Status) (c : Bool) : (st.withCp c).cause = st.cause := rfl

/-! ### Status.clear -/

@[simp] theorem clear_flt : Status.clear.flt = false := rfl
@[simp] theorem clear_cp : Status.clear.cp = false := rfl
@[simp] theorem clear_cause : Status.clear.cause = 0#4 := rfl

/-! ### Reading what was written -/

/-- A register reads what was last written to it, and no write to one register changes another. -/
@[simp] theorem reg_setReg (s : State) (r r' : Reg) (v : Nat) :
    (s.setReg r v).reg r' = if r' = r then v else s.reg r' := by
  simp [State.setReg, State.reg, Vector.get_eq_getElem, Vector.getElem_set, Fin.ext_iff, eq_comm]

/-- Two states with the same register file read the same. -/
theorem reg_congr {s t : State} (h : t.regs = s.regs) (r : Reg) : t.reg r = s.reg r := by
  simp [State.reg, h]

/-- Two states with the same key table read the same. -/
theorem ktRead_congr {s t : State} (h : t.kt = s.kt) (idx : Nat) : t.ktRead idx = s.ktRead idx := by
  simp [State.ktRead, h]

@[simp] theorem ktRead_setReg (s : State) (r : Reg) (v : Nat) (j : Nat) : (s.setReg r v).ktRead j = s.ktRead j := rfl
@[simp] theorem reg_setAcc (s : State) (v : Nat) (q : Reg) : (s.setAcc v).reg q = s.reg q := rfl
@[simp] theorem ktRead_setAcc (s : State) (v : Nat) (j : Nat) : (s.setAcc v).ktRead j = s.ktRead j := rfl
@[simp] theorem reg_ktSet (s : State) (idx v : Nat) (q : Reg) : (s.ktSet idx v).reg q = s.reg q := rfl
@[simp] theorem reg_setCp (s : State) (c : Bool) (q : Reg) : (s.setCp c).reg q = s.reg q := rfl
@[simp] theorem ktRead_setCp (s : State) (c : Bool) (j : Nat) : (s.setCp c).ktRead j = s.ktRead j := rfl
@[simp] theorem reg_setCq (s : State) (ws : List Word) (q : Reg) : (s.setCq ws).reg q = s.reg q := rfl
@[simp] theorem ktRead_setCq (s : State) (ws : List Word) (j : Nat) : (s.setCq ws).ktRead j = s.ktRead j := rfl
@[simp] theorem reg_append (s : State) (ws : List Word) (q : Reg) : (s.append ws).reg q = s.reg q := rfl
@[simp] theorem ktRead_append (s : State) (ws : List Word) (j : Nat) : (s.append ws).ktRead j = s.ktRead j := rfl
@[simp] theorem reg_emit (s : State) (ws : List Word) (q : Reg) : (s.emit ws).reg q = s.reg q := rfl
@[simp] theorem ktRead_emit (s : State) (ws : List Word) (j : Nat) : (s.emit ws).ktRead j = s.ktRead j := rfl
@[simp] theorem reg_raise (s : State) (k : FaultKind) (w : Word) (q : Reg) : (s.raise k w).reg q = s.reg q := rfl
@[simp] theorem ktRead_raise (s : State) (k : FaultKind) (w : Word) (j : Nat) : (s.raise k w).ktRead j = s.ktRead j := rfl
@[simp] theorem reg_clearFault (s : State) (q : Reg) : (s.clearFault).reg q = s.reg q := rfl
@[simp] theorem ktRead_clearFault (s : State) (j : Nat) : (s.clearFault).ktRead j = s.ktRead j := rfl

@[simp] theorem reg_clearAll (s : State) (q : Reg) : s.clearAll.reg q = 0 := by
  simp [State.clearAll, State.reg, Vector.get_eq_getElem]
@[simp] theorem ktRead_clearAll (s : State) (j : Nat) : s.clearAll.ktRead j = 0 := rfl
@[simp] theorem reg_hardwareReset (s : State) (q : Reg) : s.hardwareReset.reg q = 0 := by
  simp [State.hardwareReset, State.clearAll, State.reg, Vector.get_eq_getElem]
@[simp] theorem ktRead_hardwareReset (s : State) (j : Nat) : s.hardwareReset.ktRead j = 0 := rfl

end Sys2Proof.Machine
end

