-- ==== Sys2Proof/Laws/KeyTable.lean ====
section
/-! SUPPORT. The laws of the key table: a read after a write, and that a write keeps the canonical form (rule R42). -/
namespace Sys2Proof.Machine

/-- What the canonical form says, as propositions. -/
theorem KeyTable.wf_iff (t : KeyTable) :
    t.wf = true ↔ t.Pairwise (fun p q => p.1 < q.1) ∧ ∀ e ∈ t, e.2 ≠ 0 := by
  simp [KeyTable.wf]

/-- The tail of a canonical table is canonical, its indices lie above the head's, and the head is no zero entry. -/
theorem KeyTable.wf_cons {j v : Nat} {t : KeyTable} (h : KeyTable.wf ((j, v) :: t) = true) :
    KeyTable.wf t = true ∧ (∀ e ∈ t, j < e.1) ∧ v ≠ 0 := by
  rw [KeyTable.wf_iff, List.pairwise_cons] at h
  exact ⟨(KeyTable.wf_iff t).2 ⟨h.1.2, fun e he => h.2 e (List.mem_cons_of_mem _ he)⟩, h.1.1,
    h.2 (j, v) List.mem_cons_self⟩

/-- An index above which every listed index lies reads 0. -/
theorem KeyTable.read_below {t : KeyTable} {i : Nat} (h : ∀ e ∈ t, i < e.1) : t.read i = 0 := by
  induction t with
  | nil => rfl
  | cons e t ih =>
    have hlt := h e List.mem_cons_self
    simp only [KeyTable.read]
    rw [if_neg (by omega)]
    exact ih fun e' he' => h e' (List.mem_cons_of_mem _ he')

/-- An entry of a written table is the entry written or one that was there. -/
theorem KeyTable.mem_write {t : KeyTable} {i v : Nat} {e : Nat × Nat} (h : e ∈ t.write i v) :
    e = (i, v) ∧ v ≠ 0 ∨ e ∈ t := by
  induction t with
  | nil =>
    by_cases hv : v = 0
    · simp [KeyTable.write, hv] at h
    · simp only [KeyTable.write, if_neg hv, List.mem_singleton] at h
      exact .inl ⟨h, hv⟩
  | cons p t ih =>
    obtain ⟨j, u⟩ := p
    simp only [KeyTable.write] at h
    split at h
    · split at h
      · exact .inr h
      · rename_i hv
        rcases List.mem_cons.1 h with h | h
        · exact .inl ⟨h, hv⟩
        · exact .inr h
    · split at h
      · split at h
        · exact .inr (List.mem_cons_of_mem _ h)
        · rename_i hv
          rcases List.mem_cons.1 h with h | h
          · exact .inl ⟨h, hv⟩
          · exact .inr (List.mem_cons_of_mem _ h)
      · rcases List.mem_cons.1 h with h | h
        · exact .inr (h ▸ List.mem_cons_self)
        · exact (ih h).imp_right (List.mem_cons_of_mem _)

/-- A write keeps the canonical form. -/
theorem KeyTable.wf_write {t : KeyTable} (h : t.wf = true) (i v : Nat) : (t.write i v).wf = true := by
  induction t with
  | nil => by_cases hv : v = 0 <;> simp [KeyTable.write, KeyTable.wf, hv]
  | cons p t ih =>
    obtain ⟨j, u⟩ := p
    obtain ⟨ht, hlt, hu⟩ := KeyTable.wf_cons h
    obtain ⟨hpt, hzt⟩ := (KeyTable.wf_iff t).1 ht
    simp only [KeyTable.write]
    split
    · split
      · exact h
      · rename_i hij hv
        refine (KeyTable.wf_iff _).2 ⟨?_, ?_⟩
        · refine List.pairwise_cons.2 ⟨?_, List.pairwise_cons.2 ⟨hlt, hpt⟩⟩
          intro e he
          rcases List.mem_cons.1 he with rfl | he
          · exact hij
          · exact hij.trans (hlt e he)
        · simpa [hv, hu] using fun a b hab => hzt (a, b) hab
    · split
      · split
        · exact ht
        · rename_i hij hv
          subst hij
          exact (KeyTable.wf_iff _).2 ⟨List.pairwise_cons.2 ⟨hlt, hpt⟩,
            by simpa [hv] using fun a b hab => hzt (a, b) hab⟩
      · rename_i h1 h2
        obtain ⟨hp', hz'⟩ := (KeyTable.wf_iff _).1 (ih ht)
        refine (KeyTable.wf_iff _).2 ⟨List.pairwise_cons.2 ⟨?_, hp'⟩, ?_⟩
        · intro e he
          rcases KeyTable.mem_write he with ⟨rfl, -⟩ | he
          · show j < i
            omega
          · exact hlt e he
        · intro e he
          rcases List.mem_cons.1 he with rfl | he
          · exact hu
          · exact hz' e he

/-- A read after a write: the entry written at its index, every other entry as before (rule R42). -/
theorem KeyTable.read_write {t : KeyTable} (h : t.wf = true) (i v j : Nat) :
    (t.write i v).read j = if j = i then v else t.read j := by
  induction t with
  | nil => by_cases hv : v = 0 <;> simp [KeyTable.write, KeyTable.read, hv, eq_comm]
  | cons p t ih =>
    obtain ⟨k, u⟩ := p
    obtain ⟨ht, hlt, hu⟩ := KeyTable.wf_cons h
    have hz : KeyTable.read t k = 0 := KeyTable.read_below hlt
    have hi : i < k → KeyTable.read t i = 0 := fun hik => KeyTable.read_below fun e he => hik.trans (hlt e he)
    simp only [KeyTable.write]
    split
    · rename_i hik
      split
      · rename_i hv
        by_cases hj : j = i
        · subst hj
          rw [if_pos rfl, KeyTable.read, if_neg (by omega), hi hik, hv]
        · simp [hj]
      · simp [KeyTable.read, eq_comm]
    · split
      · rename_i _ hik
        subst hik
        split
        · rename_i hv
          by_cases hj : j = i
          · subst hj; simp [hz, hv]
          · simp [KeyTable.read, hj, Ne.symm hj]
        · by_cases hj : j = i
          · subst hj; simp [KeyTable.read]
          · simp [KeyTable.read, hj, Ne.symm hj]
      · rename_i h1 h2
        by_cases hjk : k = j
        · subst hjk
          rw [KeyTable.read, if_pos rfl, if_neg (by omega), KeyTable.read, if_pos rfl]
        · simp [KeyTable.read, hjk, ih ht]

/-- A stored entry reads as the value written, every other entry as before. -/
theorem ktRead_ktSet {s : State} (h : s.kt.wf = true) (i v j : Nat) :
    (s.ktSet i v).ktRead j = if j = i then v else s.ktRead j := KeyTable.read_write h i v j

/-- An entry that is listed is read at its index; any other index reads 0. -/
theorem KeyTable.read_mem (t : KeyTable) (i : Nat) : t.read i = 0 ∨ (i, t.read i) ∈ t := by
  induction t with
  | nil => exact .inl rfl
  | cons p t ih =>
    obtain ⟨j, u⟩ := p
    by_cases h : j = i
    · subst h; right; simp [KeyTable.read]
    · simp only [KeyTable.read, if_neg h]
      exact ih.imp_right (List.mem_cons_of_mem _)

end Sys2Proof.Machine
end

