-- ==== Sys2Proof/Laws/Ops.lean ====
section
/-! SUPPORT. One lemma per shared operation that says everything it can do, and what each update does to the
invariant. -/
namespace Sys2Proof.Machine

/-! ### Sizes -/

/-- A number of at most `n` bits is one below `2^n` (rule R9). -/
theorem bitlen_le_iff (v n : Nat) : bitlen v ≤ n ↔ v < 2 ^ n := by
  unfold bitlen
  split
  · rename_i h; subst h; simp
  · rename_i h
    rw [Nat.add_one_le_iff, Nat.log2_lt h]

/-- A smaller number is no longer. -/
theorem bitlen_mono {a b : Nat} (h : a ≤ b) : bitlen a ≤ bitlen b :=
  (bitlen_le_iff a _).2 (h.trans_lt ((bitlen_le_iff b _).1 le_rfl))

/-- A number of at most `n` limbs is one below `2^(32·n)` (rule R9). -/
theorem nlimbs_le_iff (v n : Nat) : nlimbs v ≤ n ↔ v < 2 ^ (32 * n) := by
  rw [← bitlen_le_iff]
  unfold nlimbs
  omega

/-- What is below a number that fits fits too (rule R28). -/
theorem fits_mono {p : Params} {a b : Nat} (hb : fits p b = true) (h : a ≤ b) : fits p a = true := by
  unfold fits at *
  split
  · rfl
  · rename_i n hn
    rw [hn] at hb
    simpa using (bitlen_mono h).trans (by simpa using hb)

/-- 0 always fits. -/
@[simp] theorem fits_zero (p : Params) : fits p 0 = true := by
  unfold fits
  split <;> simp [bitlen]

/-- With legal parameters every 16-bit number fits (rule R91). -/
theorem fits_of_lt {p : Params} (hp : Config.legal p = true) {v : Nat} (hv : v < 65536) : fits p v = true := by
  unfold fits
  split
  · rfl
  · rename_i n hn
    simp only [Config.legal, Config.legalMaxBits, hn, Bool.and_eq_true, decide_eq_true_eq] at hp
    rw [decide_eq_true_eq, bitlen_le_iff]
    exact hv.trans (lt_of_lt_of_le (by norm_num) (Nat.pow_le_pow_right (n := 2) (by norm_num) hp.2))

/-! ### The capacity-checked write and the key access (rules R28, R41) -/

theorem storing_of_fits {s done : State} {cmd : Word} {v : Nat} (h : fits s.params v = true) :
    s.storing cmd v done = done := by simp [State.storing, h]

theorem storing_of_not_fits {s done : State} {cmd : Word} {v : Nat} (h : fits s.params v = false) :
    s.storing cmd v done = s.raise .capacity cmd := by simp [State.storing, h]

/-- A capacity-checked write does what it writes, with a value that fits, or raises `Capacity`. -/
theorem storing_cases (s : State) (cmd : Word) (v : Nat) (done : State) :
    fits s.params v = true ∧ s.storing cmd v done = done ∨
      fits s.params v = false ∧ s.storing cmd v done = s.raise .capacity cmd := by
  cases h : fits s.params v
  · exact .inr ⟨rfl, storing_of_not_fits h⟩
  · exact .inl ⟨rfl, storing_of_fits h⟩

theorem withKey_of_lt {s access : State} {cmd : Word} {idx : BitVec 16} (h : idx.toNat < s.params.ktSize) :
    s.withKey cmd idx access = access := by simp [State.withKey, keyLegal, zext16, h]

theorem withKey_of_ge {s access : State} {cmd : Word} {idx : BitVec 16} (h : s.params.ktSize ≤ idx.toNat) :
    s.withKey cmd idx access = s.raise .keyRange cmd := by
  simp [State.withKey, keyLegal, zext16, Nat.not_lt.2 h]

/-- A key-table access happens, at an index that exists, or the command raises `KeyRange`. -/
theorem withKey_cases (s : State) (cmd : Word) (idx : BitVec 16) (access : State) :
    idx.toNat < s.params.ktSize ∧ s.withKey cmd idx access = access ∨
      s.params.ktSize ≤ idx.toNat ∧ s.withKey cmd idx access = s.raise .keyRange cmd := by
  rcases Nat.lt_or_ge idx.toNat s.params.ktSize with h | h
  · exact .inl ⟨h, withKey_of_lt h⟩
  · exact .inr ⟨h, withKey_of_ge h⟩

/-! ### What each update changes, in the terms of claims -/

/-- Fault entry writes `FLT`, `CAUSE` and `FCMD` and nothing else (rule R173). -/
theorem raise_entersFault (s : State) (k : FaultKind) (w : Word) : EntersFault (causeCode k) w s (s.raise k w) :=
  ⟨rfl, rfl, rfl, rfl, fun _ => rfl, rfl, fun _ => rfl, rfl, rfl, rfl⟩

theorem setReg_writesReg (s : State) (r : Reg) (v : Nat) : WritesReg r v s (s.setReg r v) :=
  ⟨by simp, fun q hq => by simp [hq], rfl, fun _ => rfl, ⟨rfl, rfl, rfl, rfl⟩, ⟨rfl, rfl, rfl⟩⟩

theorem setAcc_writesAcc (s : State) (v : Nat) : WritesAcc v s (s.setAcc v) :=
  ⟨rfl, fun _ => rfl, fun _ => rfl, ⟨rfl, rfl, rfl, rfl⟩, ⟨rfl, rfl, rfl⟩⟩

theorem ktSet_writesKey {s : State} (h : s.kt.wf = true) (i v : Nat) : WritesKey i v s (s.ktSet i v) :=
  ⟨by simp [ktRead_ktSet h], fun j hj => by simp [ktRead_ktSet h, hj], fun _ => rfl, rfl, ⟨rfl, rfl, rfl, rfl⟩,
    ⟨rfl, rfl, rfl⟩⟩

theorem emit_emits (s : State) (ws : List Word) : Emits ws s (s.emit ws) :=
  ⟨rfl, rfl, rfl, fun _ => rfl, rfl, fun _ => rfl, ⟨rfl, rfl, rfl, rfl⟩⟩

/-- The cause codes lie in `[1, 5]` (rule R171). -/
theorem causeCode_bounds (k : FaultKind) : 1 ≤ (causeCode k).toNat ∧ (causeCode k).toNat ≤ 5 := by
  cases k <;> decide

/-! ### What each update does to the invariant -/

namespace EngineInv

theorem keyFits {s : State} (h : EngineInv s) (i : Nat) : fits s.params (s.ktRead i) = true := by
  rcases KeyTable.read_mem s.kt i with h0 | hm
  · simp [State.ktRead, h0]
  · exact h.keysFit _ hm

theorem setReg {s : State} (h : EngineInv s) {v : Nat} (r : Reg) (hv : fits s.params v = true) : EngineInv (s.setReg r v) :=
  { h with
    regsFit := fun q => by
      rw [reg_setReg]
      split
      · exact hv
      · exact h.regsFit q }

theorem setAcc {s : State} (h : EngineInv s) {v : Nat} (hv : fits s.params v = true) : EngineInv (s.setAcc v) :=
  { h with accFits := hv }

theorem ktSet {s : State} (h : EngineInv s) {i v : Nat} (hi : i < s.params.ktSize) (hv : fits s.params v = true) :
    EngineInv (s.ktSet i v) :=
  { h with
    table := KeyTable.wf_write h.table i v
    indices := fun e he => by
      rcases KeyTable.mem_write he with ⟨rfl, -⟩ | he
      · exact hi
      · exact h.indices e he
    keysFit := fun e he => by
      rcases KeyTable.mem_write he with ⟨rfl, -⟩ | he
      · exact hv
      · exact h.keysFit e he }

theorem setCp {s : State} (h : EngineInv s) (c : Bool) : EngineInv (s.setCp c) := { h with }
theorem setCq {s : State} (h : EngineInv s) (ws : List Word) : EngineInv (s.setCq ws) := { h with }
theorem emit {s : State} (h : EngineInv s) (ws : List Word) : EngineInv (s.emit ws) := { h with }

theorem raise {s : State} (h : EngineInv s) (k : FaultKind) (w : Word) : EngineInv (s.raise k w) :=
  { h with
    fltCause := by cases k <;> simp [causeCode]
    causeMax := (causeCode_bounds k).2
    fcmdZero := fun hf => by simp at hf }

theorem clearFault {s : State} (h : EngineInv s) : EngineInv s.clearFault :=
  { h with fltCause := by simp, causeMax := by simp, fcmdZero := fun _ => rfl }

theorem clearAll {s : State} (h : Config.legal s.params = true) : EngineInv s.clearAll where
  legal := h
  table := rfl
  indices := by simp
  regsFit := by simp
  accFits := by simp
  keysFit := by simp
  fltCause := by simp
  causeMax := by simp
  fcmdZero := fun _ => rfl

end EngineInv

end Sys2Proof.Machine
end

