-- ==== Sys2Proof/Laws/Step.lean ====
section
/-! SUPPORT. What a step can do, said once; decoding one stream position; runs of steps. -/
namespace Sys2Proof

/-! ### One stream position -/

theorem decode_error {w : Word} {e : DecodeError} (h : decodeHead w = .error e) (ws : List Word) :
    decode (w :: ws) = .illegal e w ws := by simp [decode, h]

theorem decode_plain {w : Word} {i : Instr} (h : decodeHead w = .ok (.plain i)) (ws : List Word) :
    decode (w :: ws) = .command i ws := by simp [decode, h]

/-- Whatever decodes as a command is a word with a whole command, or the head of an `LDI` and its payload. -/
theorem decode_command_cases {ws rest : List Word} {i : Instr} (h : decode ws = .command i rest) :
    ∃ w tail, ws = w :: tail ∧
      (decodeHead w = .ok (.plain i) ∧ rest = tail ∨
        ∃ rd len, decodeHead w = .ok (.ldi rd len) ∧ len.toNat ≤ tail.length ∧
          i = .ldi rd (tail.take len.toNat) ∧ rest = tail.drop len.toNat) := by
  cases ws with
  | nil => simp [decode] at h
  | cons w tail =>
    refine ⟨w, tail, rfl, ?_⟩
    simp only [decode] at h
    split at h
    · cases h
    · rename_i j hj
      cases h
      exact .inl ⟨hj, rfl⟩
    · rename_i rd len hj
      split at h
      · cases h
      · rename_i hlen
        cases h
        exact .inr ⟨rd, len, hj, by omega, rfl, rfl⟩

theorem decode_illegal_cases {ws rest : List Word} {w : Word} {e : DecodeError} (h : decode ws = .illegal e w rest) :
    ws = w :: rest ∧ decodeHead w = .error e := by
  cases ws with
  | nil => simp [decode] at h
  | cons w' tail =>
    simp only [decode] at h
    split at h
    · rename_i hj
      cases h
      exact ⟨rfl, hj⟩
    · cases h
    · split at h <;> cases h

/-- A command takes at least one word off the stream. -/
theorem decode_command_length {ws rest : List Word} {i : Instr} (h : decode ws = .command i rest) :
    rest.length < ws.length := by
  obtain ⟨w, tail, rfl, ⟨-, rfl⟩ | ⟨rd, len, -, -, -, rfl⟩⟩ := decode_command_cases h
  · simp
  · simp only [List.length_drop, List.length_cons]; omega

namespace Machine

/-! ### What a step can do -/

/-- A step does nothing (an empty `CQ`, an `LDI` waiting for payload), takes an `Illegal` word, discards a command in
the fault state, or executes one. -/
theorem step_cases {s t : State} (h : step s = .next t) :
    (s.cq = [] ∨ ∃ rd len, decode s.cq = .waiting rd len) ∧ t = s ∨
    (∃ e w rest, s.cq = w :: rest ∧ decodeHead w = .error e ∧
      (s.status.flt = true ∧ t = s.setCq rest ∨
        s.status.flt = false ∧ t = (s.setCq rest).raise .illegalCmd w)) ∨
    (∃ i rest, decode s.cq = .command i rest ∧
      (s.status.flt = true ∧ executesInFault i = false ∧ t = s.setCq rest ∨
        (s.status.flt = false ∨ executesInFault i = true) ∧ exec i (s.setCq rest) = .next t)) := by
  unfold step at h
  split at h
  · rename_i hd
    have hcq : s.cq = [] := by
      cases hq : s.cq with
      | nil => rfl
      | cons w ws =>
        rw [hq] at hd
        simp only [decode] at hd
        split at hd
        · cases hd
        · cases hd
        · split at hd <;> cases hd
    cases h
    exact .inl ⟨.inl hcq, rfl⟩
  · rename_i rd len hd
    cases h
    exact .inl ⟨.inr ⟨rd, len, hd⟩, rfl⟩
  · rename_i e w rest hd
    obtain ⟨hcq, he⟩ := decode_illegal_cases hd
    cases h
    refine .inr (.inl ⟨e, w, rest, hcq, he, ?_⟩)
    cases hf : s.status.flt
    · exact .inr ⟨rfl, by simp [takeIllegal, hf]⟩
    · exact .inl ⟨rfl, by simp [takeIllegal, hf]⟩
  · rename_i i rest hd
    refine .inr (.inr ⟨i, rest, hd, ?_⟩)
    split at h
    · rename_i hdis
      cases h
      simp only [discards, Bool.and_eq_true, Bool.not_eq_true'] at hdis
      exact .inl ⟨hdis.1, hdis.2, rfl⟩
    · rename_i hdis
      refine .inr ⟨?_, h⟩
      cases hf : s.status.flt
      · exact .inl rfl
      · right
        simpa [discards, hf] using hdis

/-! ### Runs -/

/-- One more step in front of a run. -/
theorem run_succ {s t : State} (k : Nat) (h : step s = .next t) :
    Host.Core.run Sys2Proof.core (k + 1) s = Host.Core.run Sys2Proof.core k t := by
  simp only [Host.Core.run, Sys2Proof.core, h]

/-- Outside the fault state, one more command at the head of `CQ` in front of a run. -/
theorem run_command {s t : State} {i : Instr} {rest : List Word} (k : Nat) (hd : decode s.cq = .command i rest)
    (hf : s.status.flt = false) (h : exec i (s.setCq rest) = .next t) :
    Host.Core.run Sys2Proof.core (k + 1) s = Host.Core.run Sys2Proof.core k t :=
  run_succ k (by simp [step, hd, discards, hf, h])

end Machine
end Sys2Proof
end

