-- ==== Sys2Proof/Laws/Exec.lean ====
section
/-! SUPPORT. What a command can do, said once: every command has one of the effects listed here. -/
namespace Sys2Proof.Machine

/-- The effects a command can have. -/
inductive Effect (i : Instr) (s : State) : State → Prop where
  /-- `NOP`. -/
  | same (h : i = .nop) : Effect i s s
  /-- A fault, which only the commands outside `executesInFault` raise: `KeyRange` only when some index does not exist,
  `Capacity` only when some number does not fit, or in `RDR`. -/
  | raised (k : FaultKind) (hk : k ≠ .illegalCmd) (hi : executesInFault i = false)
      (hkey : k = .keyRange → s.params.ktSize < 65536)
      (hcap : k = .capacity → s.params.maxBits ≠ none ∨ ∃ ra, i = .rdr ra) :
      Effect i s (s.raise k (encodeHead i))
  /-- A value that fits is written to a register. -/
  | reg (rd : Reg) (v : Nat) (hv : fits s.params v = true)
      (hi : mnemonicOf i ∈ ["LDS", "LDI", "MOV", "KLD", "MVA", "INV", "MULM"]) : Effect i s (s.setReg rd v)
  /-- `GCD`: a value that fits is written to a register, and `CP`. -/
  | gcd (rd : Reg) (g : Nat) (hg : fits s.params g = true) (hi : mnemonicOf i = "GCD") :
      Effect i s ((s.setReg rd g).setCp (coprimeFlag g))
  /-- A value that fits is written to the accumulator. -/
  | acc (v : Nat) (hv : fits s.params v = true) (hi : mnemonicOf i ∈ ["ACLR", "MACB"]) : Effect i s (s.setAcc v)
  /-- A value that fits is written to an entry that exists. -/
  | key (idx v : Nat) (hidx : idx < s.params.ktSize) (hv : fits s.params v = true) (hi : mnemonicOf i = "KST") :
      Effect i s (s.ktSet idx v)
  /-- `RDR` sends a register of at most 65535 limbs. -/
  | rdr (ra : Reg) (hi : i = .rdr ra) (hl : nlimbs (s.reg ra) ≤ Config.maxXferLimbs) :
      Effect i s (s.emit (rdrHeader (nlimbs (s.reg ra)) :: limbs (s.reg ra)))
  /-- `RDS` sends the status. -/
  | rds (hi : i = .rds) : Effect i s (s.emit [statusWord s.status, s.fcmd])
  /-- `CLRF`. -/
  | clrf (hi : i = .clrf) : Effect i s s.clearFault
  /-- `RST`. -/
  | rst (hi : i = .rst) : Effect i s s.clearAll

namespace Effect

/-- A capacity-checked write has the effect of the write, or raises `Capacity`. -/
theorem of_storing {i : Instr} {s done : State} {v : Nat} (hi : executesInFault i = false)
    (h : fits s.params v = true → Effect i s done) : Effect i s (s.storing (encodeHead i) v done) := by
  rcases storing_cases s (encodeHead i) v done with ⟨hv, he⟩ | ⟨hv, he⟩
  · rw [he]; exact h hv
  · rw [he]
    exact .raised .capacity (by simp) hi (by simp) fun _ => .inl fun hn => by simp [fits, hn] at hv

/-- A key-table access has the effect of the access, or raises `KeyRange`. -/
theorem of_withKey {i : Instr} {s access : State} {idx : BitVec 16} (hi : executesInFault i = false)
    (h : idx.toNat < s.params.ktSize → Effect i s access) : Effect i s (s.withKey (encodeHead i) idx access) := by
  rcases withKey_cases s (encodeHead i) idx access with ⟨hv, he⟩ | ⟨hv, he⟩
  · rw [he]; exact h hv
  · rw [he]
    exact .raised .keyRange (by simp) hi (fun _ => hv.trans_lt idx.isLt) (by simp)

end Effect

/-- Every command that answers a next state has one of those effects. -/
theorem exec_effect {i : Instr} {s t : State} (h : exec i s = .next t) : Effect i s t := by
  cases i with
  | nop => cases h; exact .same rfl
  | lds rd imm => cases h; exact .of_storing rfl fun hv => .reg rd _ hv (by simp [mnemonicOf])
  | ldi rd payload => cases h; exact .of_storing rfl fun hv => .reg rd _ hv (by simp [mnemonicOf])
  | mov rd ra => cases h; exact .of_storing rfl fun hv => .reg rd _ hv (by simp [mnemonicOf])
  | rdr ra =>
    cases h
    split
    · exact .raised .capacity (by simp) rfl (by simp) fun _ => .inr ⟨ra, rfl⟩
    · exact .rdr ra rfl (by omega)
  | kst ra idx =>
    cases h
    exact .of_withKey rfl fun hidx => .of_storing rfl fun hv => .key _ _ hidx hv rfl
  | kld rd idx =>
    cases h
    exact .of_withKey rfl fun _ => .of_storing rfl fun hv => .reg rd _ hv (by simp [mnemonicOf])
  | mva rd => cases h; exact .of_storing rfl fun hv => .reg rd _ hv (by simp [mnemonicOf])
  | gcd rd ra rb => cases h; exact .of_storing rfl fun hv => .gcd rd _ hv rfl
  | inv rd rw rm =>
    cases h
    split
    · exact .raised .modRange (by simp) rfl (by simp) (by simp)
    · split
      · exact .raised .notCoprime (by simp) rfl (by simp) (by simp)
      · exact .of_storing rfl fun hv => .reg rd _ hv (by simp [mnemonicOf])
  | mulm rd ra rb rm =>
    cases h
    split
    · exact .raised .modRange (by simp) rfl (by simp) (by simp)
    · exact .of_storing rfl fun hv => .reg rd _ hv (by simp [mnemonicOf])
  | aclr => cases h; exact .of_storing rfl fun hv => .acc _ hv (by simp [mnemonicOf])
  | macb idx bit =>
    cases h
    exact .of_withKey rfl fun _ => .of_storing rfl fun hv => .acc _ hv (by simp [mnemonicOf])
  | rds => cases h; exact .rds rfl
  | clrf => cases h; exact .clrf rfl
  | rst => cases h; exact .rst rfl

/-- No command touches `CQ` or the parameters. -/
theorem exec_keeps_stream {i : Instr} {s t : State} (h : exec i s = .next t) : t.cq = s.cq ∧ t.params = s.params := by
  cases exec_effect h <;> exact ⟨rfl, rfl⟩

end Sys2Proof.Machine
end

