-- ==== Sys2Proof/Laws/PerInstr.lean ====
section
/-! SUPPORT. What holds of every instruction as syntax, one lemma per constructor. -/
namespace Sys2Proof.Laws

/-- A command's word is a word of that command's row: it decodes, under that mnemonic (rules R64, R66). -/
def HeadDecodes.Statement (i : Instr) : Prop :=
  ∃ h, decodeHead (encodeHead i) = .ok h ∧ headMnemonic h = mnemonicOf i

/-- A well-formed command's word announces exactly its payload (rules R60, R68). -/
def PayloadAnnounced.Statement (i : Instr) : Prop :=
  i.WellFormed = true → payloadLength (encodeHead i) = (payloadOf i).length

theorem HeadDecodes.nop : HeadDecodes.Statement .nop :=
  ⟨.plain .nop, by simp [decodeHead, decodeBare, needZero, encodeHead], rfl⟩
theorem HeadDecodes.lds (rd : Reg) (imm : BitVec 16) : HeadDecodes.Statement (.lds rd imm) :=
  ⟨.plain (.lds rd imm), by simp [decodeHead, decodeRegImm, needZero, encodeHead], rfl⟩
theorem HeadDecodes.ldi (rd : Reg) (payload : List Word) : HeadDecodes.Statement (.ldi rd payload) :=
  ⟨.ldi rd (BitVec.ofNat 16 payload.length), by simp [decodeHead, decodeRegImm, needZero, encodeHead], rfl⟩
theorem HeadDecodes.mov (rd : Reg) (ra : Reg) : HeadDecodes.Statement (.mov rd ra) :=
  ⟨.plain (.mov rd ra), by simp [decodeHead, needZero, encodeHead], rfl⟩
theorem HeadDecodes.rdr (ra : Reg) : HeadDecodes.Statement (.rdr ra) :=
  ⟨.plain (.rdr ra), by simp [decodeHead, needZero, encodeHead], rfl⟩
theorem HeadDecodes.kst (ra : Reg) (idx : BitVec 16) : HeadDecodes.Statement (.kst ra idx) :=
  ⟨.plain (.kst ra idx), by simp [decodeHead, decodeRegImm, needZero, encodeHead], rfl⟩
theorem HeadDecodes.kld (rd : Reg) (idx : BitVec 16) : HeadDecodes.Statement (.kld rd idx) :=
  ⟨.plain (.kld rd idx), by simp [decodeHead, decodeRegImm, needZero, encodeHead], rfl⟩
theorem HeadDecodes.mva (rd : Reg) : HeadDecodes.Statement (.mva rd) :=
  ⟨.plain (.mva rd), by simp [decodeHead, needZero, encodeHead], rfl⟩
theorem HeadDecodes.gcd (rd : Reg) (ra : Reg) (rb : Reg) : HeadDecodes.Statement (.gcd rd ra rb) :=
  ⟨.plain (.gcd rd ra rb), by simp [decodeHead, needZero, encodeHead], rfl⟩
theorem HeadDecodes.inv (rd : Reg) (rw : Reg) (rm : Reg) : HeadDecodes.Statement (.inv rd rw rm) :=
  ⟨.plain (.inv rd rw rm), by simp [decodeHead, needZero, encodeHead], rfl⟩
theorem HeadDecodes.mulm (rd : Reg) (ra : Reg) (rb : Reg) (rm : Reg) : HeadDecodes.Statement (.mulm rd ra rb rm) :=
  ⟨.plain (.mulm rd ra rb rm), by simp [decodeHead, needZero, encodeHead], rfl⟩
theorem HeadDecodes.aclr : HeadDecodes.Statement .aclr :=
  ⟨.plain .aclr, by simp [decodeHead, decodeBare, needZero, encodeHead], rfl⟩
theorem HeadDecodes.macb (idx : BitVec 16) (bit : Bool) : HeadDecodes.Statement (.macb idx bit) :=
  ⟨.plain (.macb idx bit), by simp [decodeHead, needZero, encodeHead], rfl⟩
theorem HeadDecodes.rds : HeadDecodes.Statement .rds :=
  ⟨.plain .rds, by simp [decodeHead, decodeBare, needZero, encodeHead], rfl⟩
theorem HeadDecodes.clrf : HeadDecodes.Statement .clrf :=
  ⟨.plain .clrf, by simp [decodeHead, decodeBare, needZero, encodeHead], rfl⟩
theorem HeadDecodes.rst : HeadDecodes.Statement .rst :=
  ⟨.plain .rst, by simp [decodeHead, decodeBare, needZero, encodeHead], rfl⟩

theorem PayloadAnnounced.nop : PayloadAnnounced.Statement .nop := by
  simp [PayloadAnnounced.Statement, payloadLength, decodeHead, decodeBare, needZero, encodeHead, payloadOf]
theorem PayloadAnnounced.lds (rd : Reg) (imm : BitVec 16) : PayloadAnnounced.Statement (.lds rd imm) := by
  simp [PayloadAnnounced.Statement, payloadLength, decodeHead, decodeRegImm, needZero, encodeHead, payloadOf]
theorem PayloadAnnounced.ldi (rd : Reg) (payload : List Word) : PayloadAnnounced.Statement (.ldi rd payload) := by
  intro h
  simp only [Instr.WellFormed, Config.maxXferLimbs, decide_eq_true_eq] at h
  have hl : payload.length % 65536 = payload.length := by omega
  simp [payloadLength, decodeHead, decodeRegImm, needZero, encodeHead, payloadOf, hl]
theorem PayloadAnnounced.mov (rd : Reg) (ra : Reg) : PayloadAnnounced.Statement (.mov rd ra) := by
  simp [PayloadAnnounced.Statement, payloadLength, decodeHead, needZero, encodeHead, payloadOf]
theorem PayloadAnnounced.rdr (ra : Reg) : PayloadAnnounced.Statement (.rdr ra) := by
  simp [PayloadAnnounced.Statement, payloadLength, decodeHead, needZero, encodeHead, payloadOf]
theorem PayloadAnnounced.kst (ra : Reg) (idx : BitVec 16) : PayloadAnnounced.Statement (.kst ra idx) := by
  simp [PayloadAnnounced.Statement, payloadLength, decodeHead, decodeRegImm, needZero, encodeHead, payloadOf]
theorem PayloadAnnounced.kld (rd : Reg) (idx : BitVec 16) : PayloadAnnounced.Statement (.kld rd idx) := by
  simp [PayloadAnnounced.Statement, payloadLength, decodeHead, decodeRegImm, needZero, encodeHead, payloadOf]
theorem PayloadAnnounced.mva (rd : Reg) : PayloadAnnounced.Statement (.mva rd) := by
  simp [PayloadAnnounced.Statement, payloadLength, decodeHead, needZero, encodeHead, payloadOf]
theorem PayloadAnnounced.gcd (rd : Reg) (ra : Reg) (rb : Reg) : PayloadAnnounced.Statement (.gcd rd ra rb) := by
  simp [PayloadAnnounced.Statement, payloadLength, decodeHead, needZero, encodeHead, payloadOf]
theorem PayloadAnnounced.inv (rd : Reg) (rw : Reg) (rm : Reg) : PayloadAnnounced.Statement (.inv rd rw rm) := by
  simp [PayloadAnnounced.Statement, payloadLength, decodeHead, needZero, encodeHead, payloadOf]
theorem PayloadAnnounced.mulm (rd : Reg) (ra : Reg) (rb : Reg) (rm : Reg) : PayloadAnnounced.Statement (.mulm rd ra rb rm) := by
  simp [PayloadAnnounced.Statement, payloadLength, decodeHead, needZero, encodeHead, payloadOf]
theorem PayloadAnnounced.aclr : PayloadAnnounced.Statement .aclr := by
  simp [PayloadAnnounced.Statement, payloadLength, decodeHead, decodeBare, needZero, encodeHead, payloadOf]
theorem PayloadAnnounced.macb (idx : BitVec 16) (bit : Bool) : PayloadAnnounced.Statement (.macb idx bit) := by
  simp [PayloadAnnounced.Statement, payloadLength, decodeHead, needZero, encodeHead, payloadOf]
theorem PayloadAnnounced.rds : PayloadAnnounced.Statement .rds := by
  simp [PayloadAnnounced.Statement, payloadLength, decodeHead, decodeBare, needZero, encodeHead, payloadOf]
theorem PayloadAnnounced.clrf : PayloadAnnounced.Statement .clrf := by
  simp [PayloadAnnounced.Statement, payloadLength, decodeHead, decodeBare, needZero, encodeHead, payloadOf]
theorem PayloadAnnounced.rst : PayloadAnnounced.Statement .rst := by
  simp [PayloadAnnounced.Statement, payloadLength, decodeHead, decodeBare, needZero, encodeHead, payloadOf]

end Sys2Proof.Laws
end

