-- ==== Sys2Proof/Laws/Words.lean ====
section
/-! SUPPORT. The words of claims, written as numbers, are the encoder's words (rules R61, R62), and the two response
headers as numbers (rules R71, R72). -/
namespace Sys2Proof.Machine

theorem rFormat_eq_rWord (op : BitVec 8) (rd ra rb rm : BitVec 4) :
    rFormat op rd ra rb rm = rWord op.toNat rd.toNat ra.toNat rb.toNat rm.toNat := by
  apply BitVec.eq_of_toNat_eq
  rw [rFormat_toNat, rWord, BitVec.toNat_ofNat, Nat.mod_eq_of_lt (by omega)]

theorem iFormat_eq_iWord (op : BitVec 8) (r f : BitVec 4) (imm : BitVec 16) :
    iFormat op r f imm = iWord op.toNat r.toNat f.toNat imm.toNat := by
  apply BitVec.eq_of_toNat_eq
  rw [iFormat_toNat, iWord, BitVec.toNat_ofNat, Nat.mod_eq_of_lt (by omega)]

/-- The header of an `RDR` response as a number (rule R71). -/
theorem rdrHeader_toNat (len : Nat) : (rdrHeader len).toNat = 0x04000000 + len % 65536 := by
  refine (toNat_concat (0x04#8 ++ 0#8) (BitVec.ofNat 16 len)).trans ?_
  simp

/-- Word 0 of an `RDS` response as a number (rule R72). -/
theorem statusWord_toNat (st : Status) :
    (statusWord st).toNat = 0x20000000 + 16 * st.cause.toNat + 2 * st.cp.toNat + st.flt.toNat := by
  refine (toNat_concat (0x20#8 ++ 0x00#8 ++ 0x00#8 ++ st.cause ++ 0#2 ++ BitVec.ofBool st.cp)
    (BitVec.ofBool st.flt)).trans ?_
  simp only [toNat_concat]
  simp
  omega

end Sys2Proof.Machine
end

