-- ==== Sys2Proof/Machine/Assembler.lean ====
section
/-! DEFINITION. The assembler syntax of rule R73 and the pseudo-instructions of rule R74 as text.
It is the syntax of listings and no part of the engine (log entry 13). -/
namespace Sys2Proof.Machine

/-! ### Printing -/

/-- A hexadecimal digit. -/
def hexChar (d : Nat) : Char := ("0123456789ABCDEF".toList).getD d '0'

/-- Eight hexadecimal digits, most significant first (rule R8). -/
def hexWord (w : Word) : List Char :=
  [28, 24, 20, 16, 12, 8, 4, 0].map fun k => hexChar (w.toNat >>> k % 16)

/-- A register name (rule R73). -/
def regText (r : Reg) : String := "b" ++ toString r.val

/-- An immediate in decimal (rule R73). -/
def immText (n : Nat) : String := "#" ++ toString n

/-- The lines of one command: the operand forms are those of the second column of rule R64, and an `LDI` is followed by
one `.word` line per payload word (rule R73). -/
def asmLines : Instr → List String
  | .nop             => ["NOP"]
  | .lds rd imm      => ["LDS " ++ regText rd ++ ", " ++ immText imm.toNat]
  | .ldi rd payload  => ("LDI " ++ regText rd ++ ", " ++ immText payload.length) ::
      payload.map fun w => ".word 0x" ++ String.ofList (hexWord w)
  | .mov rd ra       => ["MOV " ++ regText rd ++ ", " ++ regText ra]
  | .rdr ra          => ["RDR " ++ regText ra]
  | .kst ra idx      => ["KST " ++ regText ra ++ ", " ++ immText idx.toNat]
  | .kld rd idx      => ["KLD " ++ regText rd ++ ", " ++ immText idx.toNat]
  | .mva rd          => ["MVA " ++ regText rd]
  | .gcd rd ra rb    => ["GCD " ++ regText rd ++ ", " ++ regText ra ++ ", " ++ regText rb]
  | .inv rd rw rm    => ["INV " ++ regText rd ++ ", " ++ regText rw ++ ", " ++ regText rm]
  | .mulm rd ra rb rm =>
      ["MULM " ++ regText rd ++ ", " ++ regText ra ++ ", " ++ regText rb ++ ", " ++ regText rm]
  | .aclr            => ["ACLR"]
  | .macb idx bit    => ["MACB " ++ immText idx.toNat ++ ", " ++ immText (bitVal bit)]
  | .rds             => ["RDS"]
  | .clrf            => ["CLRF"]
  | .rst             => ["RST"]

/-! ### Reading -/

/-- Blank characters between the parts of a line. -/
def isBlank (c : Char) : Bool := c == ' ' || c == '\t'

/-- A text without the blanks around it. -/
def trim (t : List Char) : List Char := ((t.dropWhile isBlank).reverse.dropWhile isBlank).reverse

/-- A line without its comment, which runs from `;` to the end (rule R73). -/
def withoutComment (t : List Char) : List Char := trim (t.takeWhile fun c => c != ';')

/-- The parts of a text between commas. -/
def splitCommas : List Char → List (List Char)
  | []      => [[]]
  | c :: cs =>
    if c == ',' then [] :: splitCommas cs
    else match splitCommas cs with
      | []      => [[c]]
      | p :: ps => (c :: p) :: ps

/-- The value of a digit in base 10 or 16. -/
def digitVal (base : Nat) (c : Char) : Option Nat :=
  let n := c.toNat
  let d := if 48 ≤ n ∧ n ≤ 57 then some (n - 48)
    else if 65 ≤ n ∧ n ≤ 70 then some (n - 55)
    else if 97 ≤ n ∧ n ≤ 102 then some (n - 87)
    else none
  d.filter fun v => decide (v < base)

/-- The number a string of digits stands for, read behind `acc`. -/
def digitsVal (base : Nat) : Nat → List Char → Option Nat
  | acc, []      => some acc
  | acc, c :: cs => (digitVal base c).bind fun d => digitsVal base (base * acc + d) cs

/-- A decimal numeral or a hexadecimal numeral behind `0x` (rule R73). -/
def readNumeral : List Char → Option Nat
  | []                => none
  | '0' :: 'x' :: []  => none
  | '0' :: 'x' :: cs  => digitsVal 16 0 cs
  | cs                => digitsVal 10 0 cs

/-- A register operand. -/
def readReg : List Char → Option Reg
  | ['b', c] => (digitVal 10 c).bind fun d => if h : d < 8 then some ⟨d, h⟩ else none
  | _        => none

/-- An immediate operand. -/
def readImm : List Char → Option Nat
  | '#' :: cs => readNumeral cs
  | _         => none

/-- An immediate operand of 16 bits. -/
def readImm16 (t : List Char) : Option (BitVec 16) :=
  (readImm t).bind fun n => if n < 65536 then some (BitVec.ofNat 16 n) else none

/-- The bit operand of `MACB`. -/
def readBit (t : List Char) : Option Bool :=
  (readImm t).bind fun n => if n = 0 then some false else if n = 1 then some true else none

/-- The characters of a block, each `0` or `1`, up to the closing quotation mark (rule R74). -/
def readBits : List Char → Option (List Bool)
  | []       => none
  | ['"']    => some []
  | c :: cs  =>
    if c == '0' then (readBits cs).map (false :: ·)
    else if c == '1' then (readBits cs).map (true :: ·)
    else none

/-- The block operand of `SSUM`. -/
def readBlock : List Char → Option (List Bool)
  | '"' :: cs => readBits cs
  | _         => none

/-- One line as a mnemonic and its operands. -/
def splitLine (t : List Char) : List Char × List (List Char) :=
  let line := withoutComment t
  let name := line.takeWhile fun c => !isBlank c
  let rest := trim (line.dropWhile fun c => !isBlank c)
  (name, if rest.isEmpty then [] else (splitCommas rest).map trim)

/-- What one line of a listing says. -/
inductive AsmLine where
  | blank
  | word (w : Word)
  | ldi (rd : Reg) (len : Nat)
  | commands (is : List Instr)
  deriving DecidableEq, Repr

/-- Read one line (rules R64, R73, R74); `none` is an assembly error. -/
def readLine (p : Params) (t : List Char) : Option AsmLine :=
  let (name, ops) := splitLine t
  let one (i : Option Instr) : Option AsmLine := i.map fun i => .commands [i]
  match ops with
  | [] =>
    if name.isEmpty then some .blank
    else if name == "NOP".toList then one (some .nop)
    else if name == "ACLR".toList then one (some .aclr)
    else if name == "RDS".toList then one (some .rds)
    else if name == "CLRF".toList then one (some .clrf)
    else if name == "RST".toList then one (some .rst)
    else none
  | [a] =>
    if name == "RDR".toList then one ((readReg a).map .rdr)
    else if name == "MVA".toList then one ((readReg a).map .mva)
    else if name == ".word".toList then
      (readNumeral a).bind fun n => if n < 2 ^ 32 then some (.word (BitVec.ofNat 32 n)) else none
    else none
  | [a, b] =>
    if name == "LDS".toList then one ((readReg a).bind fun rd => (readImm16 b).map fun imm => .lds rd imm)
    else if name == "LDI".toList then
      (readReg a).bind fun rd => (readImm16 b).map fun len => .ldi rd len.toNat
    else if name == "MOV".toList then one ((readReg a).bind fun rd => (readReg b).map fun ra => .mov rd ra)
    else if name == "KST".toList then one ((readReg a).bind fun ra => (readImm16 b).map fun idx => .kst ra idx)
    else if name == "KLD".toList then one ((readReg a).bind fun rd => (readImm16 b).map fun idx => .kld rd idx)
    else if name == "MACB".toList then
      one ((readImm16 a).bind fun idx => (readBit b).map fun bit => .macb idx bit)
    else if name == "LDV".toList then one ((readReg a).bind fun rd => (readImm b).bind fun v => ldv rd v)
    else if name == "SSUM".toList then
      ((readReg a).bind fun rd => (readBlock b).bind fun bits => ssumPseudo p rd bits).map .commands
    else none
  | [a, b, c] =>
    if name == "GCD".toList then
      one ((readReg a).bind fun rd => (readReg b).bind fun ra => (readReg c).map fun rb => .gcd rd ra rb)
    else if name == "INV".toList then
      one ((readReg a).bind fun rd => (readReg b).bind fun rw => (readReg c).map fun rm => .inv rd rw rm)
    else none
  | [a, b, c, d] =>
    if name == "MULM".toList then
      one ((readReg a).bind fun rd => (readReg b).bind fun ra => (readReg c).bind fun rb =>
        (readReg d).map fun rm => .mulm rd ra rb rm)
    else none
  | _ => none

/-- Read a listing: an `LDI` line takes the `.word` lines behind it as its payload (rule R73).
`pending` is the `LDI` whose payload is being read: its register, the words still to come and the words read. -/
def assembleFrom (p : Params) : Option (Reg × Nat × List Word) → List (List Char) → Option (List Instr)
  | none,             []            => some []
  | some _,           []            => none
  | none,             line :: lines =>
    match readLine p line with
    | none                => none
    | some .blank         => assembleFrom p none lines
    | some (.word _)      => none
    | some (.ldi rd 0)    => (assembleFrom p none lines).map (.ldi rd [] :: ·)
    | some (.ldi rd n)    => assembleFrom p (some (rd, n, [])) lines
    | some (.commands is) => (assembleFrom p none lines).map (is ++ ·)
  | some (rd, n, ws), line :: lines =>
    match readLine p line with
    | some .blank    => assembleFrom p (some (rd, n, ws)) lines
    | some (.word w) =>
      if n = 1 then (assembleFrom p none lines).map (.ldi rd (ws ++ [w]) :: ·)
      else assembleFrom p (some (rd, n - 1, ws ++ [w])) lines
    | _              => none

/-- A listing as commands. -/
def assemble (p : Params) (lines : List String) : Option (List Instr) :=
  assembleFrom p none (lines.map String.toList)

end Sys2Proof.Machine
end

