-- ==== Sys2Proof/Tests/Slice0.lean ====
section
/-! SUPPORT. The model's own tests. Expected values are those of 95_test_vectors.md and of the rules named; the word
after `test_` says what is tried. The theorems named `witness_` show states and operands that meet the hypotheses of the
statements in Certificates/Slice0/Obligations.lean. -/
namespace Sys2Proof.Machine

/-! ### Small states -/

/-- An engine with `KT_SIZE = 4` and `MAXBITS = 64`, right after reset. -/
def small : State := State.resetWith { ktSize := 4, maxBits := some 64 }

/-- The source's scenario: `m = 25` in `b0`, `w = 7` in `b1`, the inverse in `b3`, `ACC = 14`, two table entries. -/
def loaded : State :=
  ((((small.setReg 0 25).setReg 1 7).setReg 3 18).setReg 4 13).setAcc 14 |>.ktSet 2 17 |>.ktSet 3 16

/-- The largest 64-bit number in `b0`, in `ACC` and in `KT[0]`. -/
def wide : State := ((small.setReg 0 (2 ^ 64 - 1)).setAcc (2 ^ 64 - 1)).ktSet 0 (2 ^ 64 - 1)

/-- The fault state after `INV b3, b1, b0` raised `NotCoprime`, with `CP = 1` from an earlier `GCD`. -/
def faulted : State := (loaded.setCp true).raise .notCoprime 0x11310000#32

/-- An unbounded engine whose `b0` has 65536 limbs, one more than a response can carry. -/
def huge : State := State.reset.setReg 0 (2 ^ (32 * 65535))

/-- A field of the state after one step on the given words. -/
def after {α : Type} (s : State) (ws : List Word) (f : State → α) : Option α := (nextState (step (s.setCq ws))).map f

/-- A field of the state after one command. -/
def afterExec {α : Type} (s : State) (i : Instr) (f : State → α) : Option α := (nextState (exec i s)).map f

/-- `FLT`, `CAUSE` and `FCMD`. -/
def control (s : State) : Bool × BitVec 4 × Word := (s.status.flt, s.status.cause, s.fcmd)

/-! ### Well-formedness -/

/-- The one check refuses an `LDI` with more payload words than its length field can count (rule R6). -/
theorem test_wellFormed_refuses : (Instr.ldi 0 (List.replicate 65536 0)).WellFormed = false := by
  rw [Instr.WellFormed, List.length_replicate]; decide

theorem test_wellFormed_boundary : (Instr.ldi 0 (List.replicate 65535 0)).WellFormed = true := by
  rw [Instr.WellFormed, List.length_replicate]; decide

/-! ### Decoding, the words of 95_test_vectors.md B1 -/

theorem test_decode_nop : decodeHead 0x00000000#32 = .ok (.plain .nop) := by decide
theorem test_decode_lds : decodeHead 0x01000019#32 = .ok (.plain (.lds 0 25)) ∧
    decodeHead 0x0170FFFF#32 = .ok (.plain (.lds 7 65535)) := by decide
theorem test_decode_ldi : decodeHead 0x02400002#32 = .ok (.ldi 4 2) ∧ decodeHead 0x02300000#32 = .ok (.ldi 3 0) := by
  decide
theorem test_decode_mov : decodeHead 0x03250000#32 = .ok (.plain (.mov 2 5)) ∧
    decodeHead 0x03770000#32 = .ok (.plain (.mov 7 7)) := by decide
theorem test_decode_rdr : decodeHead 0x04030000#32 = .ok (.plain (.rdr 3)) := by decide
theorem test_decode_kst : decodeHead 0x05500003#32 = .ok (.plain (.kst 5 3)) := by decide
theorem test_decode_kld : decodeHead 0x06200003#32 = .ok (.plain (.kld 2 3)) := by decide
theorem test_decode_mva : decodeHead 0x07600000#32 = .ok (.plain (.mva 6)) := by decide
theorem test_decode_gcd : decodeHead 0x10201000#32 = .ok (.plain (.gcd 2 0 1)) ∧
    decodeHead 0x10112000#32 = .ok (.plain (.gcd 1 1 2)) := by decide
theorem test_decode_inv : decodeHead 0x11310000#32 = .ok (.plain (.inv 3 1 0)) ∧
    decodeHead 0x11540100#32 = .ok (.plain (.inv 5 4 1)) := by decide
theorem test_decode_mulm : decodeHead 0x12514000#32 = .ok (.plain (.mulm 5 1 4 0)) ∧
    decodeHead 0x12777700#32 = .ok (.plain (.mulm 7 7 7 7)) := by decide
theorem test_decode_aclr : decodeHead 0x18000000#32 = .ok (.plain .aclr) := by decide
theorem test_decode_macb : decodeHead 0x19010002#32 = .ok (.plain (.macb 2 true)) ∧
    decodeHead 0x19000001#32 = .ok (.plain (.macb 1 false)) ∧
    decodeHead 0x1901FFFF#32 = .ok (.plain (.macb 65535 true)) := by decide
theorem test_decode_rds : decodeHead 0x20000000#32 = .ok (.plain .rds) := by decide
theorem test_decode_clrf : decodeHead 0x21000000#32 = .ok (.plain .clrf) := by decide
theorem test_decode_rst : decodeHead 0x3F000000#32 = .ok (.plain .rst) := by decide

/-- A word is built from the fields of rule R61 bit by bit: `INV b3, b1, b0`. -/
theorem test_decode_inv_bits :
    decodeHead (0b00010001#8 ++ 0b0011#4 ++ 0b0001#4 ++ 0b0000#4 ++ 0b0000#4 ++ 0b00000000#8)
      = .ok (.plain (.inv 3 1 0)) := by decide

theorem test_illegal_opcodes : [0x08000000#32, 0x13000000#32, 0x40000000#32, 0xFFFFFFFF#32].map decodeHead =
    List.replicate 4 (.error .unassignedOpcode) := by decide +kernel
theorem test_illegal_reserved : [0x00000001#32, 0x3F000001#32, 0x04100000#32, 0x07610000#32, 0x11311000#32,
    0x19020000#32, 0x19110000#32, 0x02480001#32, 0x0207FFFF#32].map decodeHead =
    List.replicate 9 (.error .reservedNotZero) := by decide +kernel
theorem test_illegal_register : [0x03800000#32, 0x10208000#32].map decodeHead =
    List.replicate 2 (.error .noSuchRegister) := by decide +kernel

/-- The decoder check of B1: every row of the transcribed table has `(match AND mask) = match`. -/
theorem test_table_rows : ∀ row ∈ opcodeTable, row.hits row.pattern = true := by decide

/-! ### The encoder -/

theorem test_encode_inv : encode (.inv 3 1 0) = [0x11310000#32] := by decide
theorem test_encode_ldi : encode (.ldi 4 [0x89ABCDEF#32, 0x01234567#32]) =
    [0x02400002#32, 0x89ABCDEF#32, 0x01234567#32] := by decide
theorem test_encode_macb : encode (.macb 2 true) = [0x19010002#32] := by decide

/-! ### One step each (B2 to B6) -/

theorem test_step_nop : after loaded [0x00000000#32] id = some loaded := by decide
theorem test_step_lds : after loaded [0x0170FFFF#32] (·.reg 7) = some 65535 := by decide
theorem test_step_ldi : after small [0x02400002#32, 0x89ABCDEF#32, 0x01234567#32] (·.reg 4)
    = some 81985529216486895 := by decide
/-- A payload word that equals the `RST` word is data. -/
theorem test_step_ldi_data : after loaded [0x02000002#32, 0x3F000000#32, 0#32, 0x04000000#32]
    (fun t => (t.reg 0, t.reg 1, t.cq)) = some (0x3F000000, 7, [0x04000000#32]) := by decide
theorem test_step_mov : after loaded [0x03640000#32] (fun t => (t.reg 6, t.reg 4)) = some (13, 13) := by decide
theorem test_step_rdr : after loaded [0x04030000#32] (·.rq) = some [0x04000001#32, 0x00000012#32] := by decide
theorem test_step_rdr_zero : after loaded [0x04070000#32] (·.rq) = some [0x04000000#32] := by decide
theorem test_step_kst : after loaded [0x05400003#32] (fun t => (t.ktRead 3, t.ktRead 2)) = some (13, 17) := by decide
theorem test_step_kst_range : after loaded [0x05000004#32] control = some (true, 4#4, 0x05000004#32) := by decide
theorem test_step_kld : after loaded [0x06200003#32] (·.reg 2) = some 16 := by decide
theorem test_step_kld_unwritten : after loaded [0x06100000#32] (·.reg 1) = some 0 := by decide
theorem test_step_mva : after loaded [0x07600000#32] (fun t => (t.reg 6, t.acc)) = some (14, 14) := by decide
theorem test_step_gcd : after loaded [0x10201000#32] (fun t => (t.reg 2, t.status.cp)) = some (1, true) := by decide
/-- `GCD b1, b1, b2` with 12 and 18, after a `GCD` that gave 1 (B3). -/
theorem test_step_gcd_source : after (((small.setReg 1 12).setReg 2 18).setCp true) [0x10112000#32]
    (fun t => (t.reg 1, t.reg 2, t.status.cp)) = some (6, 18, false) := by decide
theorem test_step_inv : after loaded [0x11310000#32] (·.reg 3) = some 18 := by decide
/-- `INV b0, b3, b0` with `b0 = 25`, `b3 = 7` (B3). -/
theorem test_step_inv_source : after (loaded.setReg 3 7) [0x11030000#32] (fun t => (t.reg 0, t.reg 3))
    = some (18, 7) := by decide
theorem test_step_mulm : after loaded [0x12514000#32] (·.reg 5) = some 16 := by decide
/-- `MULM b1, b1, b1, b1` with `b1 = 12` (B4). -/
theorem test_step_mulm_source : after (loaded.setReg 1 12) [0x12111100#32] (·.reg 1) = some 0 := by decide
theorem test_step_aclr : after loaded [0x18000000#32] (·.acc) = some 0 := by decide
theorem test_step_macb : after loaded [0x19010002#32] (·.acc) = some 31 := by decide
/-- With `KT_SIZE = 4`, `MACB #4, #1` on a sum that would not fit reports `KeyRange` (B4, step 10). -/
theorem test_step_macb_priority : after wide [0x19010004#32] (fun t => (control t, t.acc))
    = some ((true, 4#4, 0x19010004#32), 2 ^ 64 - 1) := by decide
theorem test_step_rds : after faulted [0x20000000#32] (·.rq) = some [0x20000033#32, 0x11310000#32] := by decide
theorem test_step_clrf : after faulted [0x21000000#32] (fun t => (control t, t.status.cp, t.reg 0))
    = some ((false, 0#4, 0#32), true, 25) := by decide
theorem test_step_rst : after (faulted.emit [0x04000001#32, 25#32]) [0x3F000000#32, 0x20000000#32] id
    = some ((small.setCq [0x20000000#32]).emit [0x04000001#32, 25#32]) := by decide

/-! ### Faults and the fault state (B3, B4, B6) -/

theorem test_fault_illegal : after loaded [0x08000000#32] control = some (true, 1#4, 0x08000000#32) := by decide
/-- `m = 0` with `w = 0` reports `ModRange`, not `NotCoprime` (rule R172). -/
theorem test_fault_modRange : after small [0x11540100#32] control = some (true, 2#4, 0x11540100#32) := by decide
theorem test_fault_mulm : after small [0x12544100#32] control = some (true, 2#4, 0x12544100#32) := by decide
theorem test_fault_notCoprime : after (loaded.setReg 1 10) [0x11310000#32] (fun t => (control t, t.reg 3))
    = some ((true, 3#4, 0x11310000#32), 18) := by decide
/-- `LDI` of 2^64 with `MAXBITS = 64`: `Capacity`, all four words consumed (B4, step 1). -/
theorem test_fault_capacity_ldi : after small [0x02000003#32, 0#32, 0#32, 1#32] (fun t => (control t, t.reg 0, t.cq))
    = some ((true, 5#4, 0x02000003#32), 0, []) := by decide
theorem test_fault_capacity_macb : after wide [0x19010000#32] (fun t => (control t, t.acc))
    = some ((true, 5#4, 0x19010000#32), 2 ^ 64 - 1) := by decide
/-- A zero limb on top does not count toward the bit length (B4, step 5). -/
theorem test_ldi_zero_limb : after small [0x02100003#32, 0xFFFFFFFF#32, 0xFFFFFFFF#32, 0#32] (·.reg 1)
    = some (2 ^ 64 - 1) := by decide
/-- Only the stored result is checked (B4, step 11). -/
theorem test_mulm_wide_product : after wide [0x12300000#32] (fun t => (control t, t.reg 3))
    = some ((false, 0#4, 0#32), 0) := by decide
/-- In the fault state a legal `LDI` goes with its payload (B6). -/
theorem test_discard_ldi : after faulted [0x02100002#32, 0x21000000#32, 0x3F000000#32, 0x20000000#32]
    (fun t => (control t, t.reg 1, t.cq)) = some ((true, 3#4, 0x11310000#32), 7, [0x20000000#32]) := by decide
/-- An `Illegal` `LDI` takes one word (B6). -/
theorem test_illegal_ldi : after small [0x02480001#32, 0x21000000#32] (fun t => (control t, t.cq))
    = some ((true, 1#4, 0x02480001#32), [0x21000000#32]) := by decide

/-! ### Arithmetic (B3, B4, A2) -/

theorem test_inverse : [inverse 25 18, inverse 25 1, inverse 25 24, inverse 25 32, inverse 2 1, inverse 26 7,
    inverse 97 35] = [7, 1, 24, 18, 1, 15, 61] := by decide
theorem test_bezout : [bezoutCoef 25 7, bezoutCoef 25 18, bezoutCoef 25 32, bezoutCoef 97 35] = [-7, 7, -7, -36] := by
  decide
theorem test_back_substitution : (backSubstitute (quotients 7 25 7)).2 = -7 := by decide
theorem test_emod : [emod (-7) 25, emod 7 25, emod (-1) 7, emod (-50) 25, emod 43 25] = [18, 7, 6, 0, 18] := by decide
theorem test_gcd_zero : [gcdOf 0 0, gcdOf 0 9, gcdOf 9 0, gcdOf (2 ^ 64) (2 ^ 32)] = [0, 9, 9, 4294967296] := by decide
theorem test_ssum : ssum [true, false, true, true] [14, 21, 17, 16] = 47 := by decide

/-! ### The host's side -/

theorem test_ssum_commands : encodeAll (ssumCommands 6 [true, false, true, true]) =
    [0x18000000#32, 0x19010000#32, 0x19000001#32, 0x19010002#32, 0x19010003#32, 0x07600000#32] := by decide
theorem test_host_reset : (hostAct .reset (faulted.setCq [0x20000000#32])).map (fun p => (p.2.cq, p.2.reg 0, p.2.faultLine))
    = some ([], 0, false) := by decide
theorem test_host_take : (hostAct .take (small.emit [1#32, 2#32])).map (fun p => (p.1, p.2.rq))
    = some (.word 1#32, [2#32]) := by decide
theorem test_assemble : (assemble small.params ["SSUM b6, \"1011\" ; a block", "LDI b4, #2", ".word 0x89ABCDEF",
    ".word 0x01234567", "INV b3, b1, b0", "LDV b0, #0x19"]) =
    some (ssumCommands 6 [true, false, true, true] ++ [.ldi 4 [0x89ABCDEF#32, 0x01234567#32], .inv 3 1 0, .lds 0 25]) := by
  decide +kernel
theorem test_assemble_refuses : [assemble small.params ["MOV b2, b8"], assemble small.params ["MACB #1, #2"],
    assemble small.params ["LDI b0, #1"], assemble small.params ["SSUM b0, \"11111\""]] = [none, none, none, none] := by
  decide +kernel

/-! ### The host's reading of table words -/

theorem test_table_word : decodeTableWord 32 0x12514000 = some (.mulm 5 1 4 0) ∧
    decodeTableWord 32 0x02100002 = some (.ldi 1 [0#32, 0#32]) ∧ decodeTableWord 32 0x08000000 = none := by decide
theorem test_fetch_word : nextState (step (State.reset.withFetchWord 32 0x01000019)) = some (State.reset.setReg 0 25) := by
  decide

/-! ### Witnesses: the hypotheses of the statements, met together -/

theorem witness_inv_loaded : EngineInv loaded where
  legal := by decide
  table := by decide
  indices := by decide
  regsFit := by decide
  accFits := by decide
  keysFit := by decide
  fltCause := by decide
  causeMax := by decide
  fcmdZero := by decide

theorem witness_inv_wide : EngineInv wide where
  legal := by decide
  table := by decide
  indices := by decide
  regsFit := by decide
  accFits := by decide
  keysFit := by decide
  fltCause := by decide
  causeMax := by decide
  fcmdZero := by decide

/-- The invariant admits the fault state. -/
theorem witness_inv_faulted : EngineInv faulted where
  legal := by decide
  table := by decide
  indices := by decide
  regsFit := by decide
  accFits := by decide
  keysFit := by decide
  fltCause := by decide
  causeMax := by decide
  fcmdZero := by decide

/-- Both ends of the legal range of the parameters (rule R6). -/
theorem witness_legal : Config.legal { ktSize := 1, maxBits := some 32 } = true ∧
    Config.legal { ktSize := 65536, maxBits := none } = true ∧
    Config.legal { ktSize := 0, maxBits := none } = false ∧ Config.legal { ktSize := 65537, maxBits := none } = false ∧
    Config.legal { ktSize := 1, maxBits := some 31 } = false := by decide

theorem witness_DecodeOfEncode : (Instr.ldi 7 (List.replicate 65535 0xFFFFFFFF#32)).WellFormed = true ∧
    (Instr.ldi 7 []).WellFormed = true ∧ (Instr.macb 65535 true).WellFormed = true := by
  rw [Instr.WellFormed, List.length_replicate]; decide

theorem witness_EncodeOfDecode : decode [0x02400002#32, 0x89ABCDEF#32, 0x01234567#32, 0x20000000#32] =
    .command (.ldi 4 [0x89ABCDEF#32, 0x01234567#32]) [0x20000000#32] := by decide

theorem witness_OpcodeTable : (⟨"MACB", 0x19000000#32, 0xFFFE0000#32⟩ : OpRow) ∈ opcodeTable ∧
    (⟨"MACB", 0x19000000#32, 0xFFFE0000#32⟩ : OpRow).hits 0x1901FFFF#32 = true ∧
    (⟨"MACB", 0x19000000#32, 0xFFFE0000#32⟩ : OpRow).hits 0x19020000#32 = false ∧
    decodeHead 0x1901FFFF#32 = .ok (.plain (.macb 65535 true)) ∧
    decodeHead 0x19020000#32 = .error .reservedNotZero := by decide

/-- The longest payload and one word short of it. -/
theorem witness_LdiTakesItsPayload_long : decodeHead 0x0210FFFF#32 = .ok (.ldi 1 0xFFFF#16) ∧
    (List.replicate 65534 0#32).length < (0xFFFF#16).toNat ∧
    (List.replicate 65535 0#32).length = (0xFFFF#16).toNat := by
  rw [List.length_replicate, List.length_replicate]; decide

/-- The empty payload, a waiting engine, and an `Illegal` word with opcode 0x02. -/
theorem witness_LdiTakesItsPayload : decodeHead 0x02300000#32 = .ok (.ldi 3 0) ∧
    decode (small.setCq [0x02100002#32, 0#32]).cq = .waiting 1 2 ∧
    opField 0x02480001#32 = 0x02#8 ∧ decodeHead 0x02480001#32 = .error .reservedNotZero := by decide

theorem witness_StepFollowsTheEngineStep : small.cq = [] ∧ decode [0x02100002#32, 0#32] = .waiting 1 2 ∧
    (decode [0x0100002A#32] = .command (.lds 0 42) [] ∧ faulted.status.flt = true) ∧
    decode [0x08000000#32] = .illegal .unassignedOpcode 0x08000000#32 [] ∧
    (decode [0x0100002A#32] = .command (.lds 0 42) [] ∧ small.status.flt = false) ∧
    decode [0x20000000#32] = .command .rds [] := by decide

theorem witness_IllegalWord : small.status.flt = false ∧
    (small.setCq [0x0207FFFF#32, 1#32]).cq = [0x0207FFFF#32, 1#32] ∧
    decodeHead 0x0207FFFF#32 = .error .reservedNotZero := by decide

theorem witness_FaultStateDiscards : faulted.status.flt = true ∧ encode .rds = [0x20000000#32] ∧
    encode .clrf = [0x21000000#32] ∧ encode .rst = [0x3F000000#32] ∧
    ((Instr.ldi 1 [0x21000000#32]).WellFormed = true ∧
      encode (.ldi 1 [0x21000000#32]) = [0x02100001#32, 0x21000000#32]) ∧
    decodeHead 0x09000000#32 = .error .unassignedOpcode ∧
    (decodeHead 0x02100002#32 = .ok (.ldi 1 2) ∧ [0x21000000#32].length < (2#16).toNat) := by decide

/-- A step in the fault state that stays in it, and executes. -/
theorem witness_FaultsDoNotNest : faulted.status.flt = true ∧
    after faulted [0x20000000#32] (·.status.flt) = some true ∧
    after faulted [0x08000000#32] (·.status.flt) = some true := by decide

/-- Steps that enter the fault state: by a command, by an `LDI` with its payload, by an `Illegal` word. -/
theorem witness_FaultStep : small.status.flt = false ∧ after small [0x11000000#32] (·.status.flt) = some true ∧
    after small [0x02000003#32, 0#32, 0#32, 1#32] (·.status.flt) = some true ∧
    after small [0x02480001#32, 1#32] (·.status.flt) = some true := by decide

theorem witness_FaultingCommand : loaded.status.flt = false ∧
    afterExec loaded (.kst 0 4) (·.status.flt) = some true ∧
    afterExec wide (.macb 0 true) (·.status.flt) = some true := by decide

theorem witness_StepIgnoresLaterWords : (small.setCq [0x02100001#32, 5#32]).idle = false ∧
    (small.setCq [0x02100001#32, 5#32]).waiting = false ∧
    after small [0x02100001#32, 5#32] (·.reg 1) = some 5 := by decide

/-- States the invariant holds of, with a step that writes, one that enters the fault state, and one out of it. -/
theorem witness_StepKeepsInvariant : EngineInv loaded ∧ after loaded [0x05400000#32] (·.ktRead 0) = some 13 ∧
    EngineInv wide ∧ after wide [0x19010000#32] (·.status.flt) = some true ∧
    EngineInv faulted ∧ after faulted [0x21000000#32] (·.status.flt) = some false :=
  ⟨witness_inv_loaded, by decide, witness_inv_wide, by decide, witness_inv_faulted, by decide⟩

/-- From reset the host appends `LDS b0, #5` and `RDR b0`, the engine runs them, the host takes the response. -/
theorem witness_EveryRunKeepsInvariant : (happenAll [.host (.append 0x01000005#32), .host (.append 0x04000000#32),
    .engine, .engine, .host .take] small).map (fun t => (t.reg 0, t.rq)) = some (5, [5#32]) := by decide

/-- A queue of two responses, and a step that adds a third. -/
theorem witness_StepKeepsResponseFraming :
    cutResponses (small.emit [0x04000001#32, 25#32, 0x20000000#32, 0#32]).rq.length
      (small.emit [0x04000001#32, 25#32, 0x20000000#32, 0#32]).rq =
      some [[0x04000001#32, 25#32], [0x20000000#32, 0#32]] ∧
    after (small.emit [0x04000001#32, 25#32, 0x20000000#32, 0#32]) [0x04000000#32] (·.rq) =
      some [0x04000001#32, 25#32, 0x20000000#32, 0#32, 0x04000000#32] := by decide

theorem witness_StepEmits : after loaded [0x04030000#32] (·.rq.length) = some 2 ∧
    after faulted [0x20000000#32] (·.rq.length) = some 2 := by decide

/-- Each kind of state changes under some command. -/
theorem witness_CommandsChange : afterExec loaded (.mov 0 1) (·.reg 0) = some 7 ∧ loaded.reg 0 = 25 ∧
    afterExec loaded .aclr (·.acc) = some 0 ∧ loaded.acc = 14 ∧
    afterExec loaded (.kst 0 0) (·.ktRead 0) = some 25 ∧ loaded.ktRead 0 = 0 ∧
    afterExec loaded (.gcd 2 0 1) (·.status.cp) = some true ∧ loaded.status.cp = false ∧
    afterExec faulted .clrf control = some (false, 0#4, 0#32) := by decide

/-- Each row of the fault table, on a state the invariant holds of, with the codes 2 to 5, and code 0 beside them. -/
theorem witness_FaultTable : loaded.status.flt = false ∧ wide.status.flt = false ∧
    afterExec loaded (.mulm 5 1 4 2) (·.status.cause) = some 2#4 ∧
    afterExec loaded (.inv 5 1 2) (·.status.cause) = some 2#4 ∧
    afterExec loaded (.inv 5 0 0) (·.status.cause) = some 3#4 ∧
    afterExec loaded (.kst 0 4) (·.status.cause) = some 4#4 ∧ afterExec loaded (.kst 0 3) (·.status.cause) = some 0#4 ∧
    afterExec loaded (.macb 4 false) (·.status.cause) = some 4#4 ∧
    afterExec wide (.macb 0 true) (·.status.cause) = some 5#4 ∧
    afterExec wide (.macb 0 false) (·.status.cause) = some 0#4 ∧
    afterExec wide (.ldi 1 [0#32, 0#32, 1#32]) (·.status.cause) = some 5#4 := by decide

/-- Numbers of 65536 and of 65535 limbs, either side of what one response carries. -/
theorem witness_limbs_boundary : 65535 < nlimbs (2 ^ (32 * 65535)) ∧ nlimbs (2 ^ (32 * 65535 - 1)) ≤ 65535 ∧
    65534 < nlimbs (2 ^ (32 * 65535 - 1)) := by
  refine ⟨?_, ?_, ?_⟩
  · rw [← not_le, nlimbs_le_iff]; exact lt_irrefl _
  · rw [nlimbs_le_iff]; exact Nat.pow_lt_pow_right (by decide) (by decide)
  · rw [← not_le, nlimbs_le_iff, not_lt]; exact Nat.pow_le_pow_right (by decide) (by decide)

theorem huge_reg : huge.reg 0 = 2 ^ (32 * 65535) := by rw [huge, reg_setReg, if_pos rfl]

/-- `RDR` of a register that no response can carry. -/
theorem witness_Rdr_capacity : 65535 < nlimbs (huge.reg 0) ∧
    exec (.rdr 0) huge = .next (huge.raise .capacity 0x04000000#32) := by
  have h : 65535 < nlimbs (huge.reg 0) := by rw [huge_reg]; exact witness_limbs_boundary.1
  refine ⟨h, ?_⟩
  rw [exec, execRdr, if_pos h]
  rfl

/-- `KT_SIZE = 65536` with a fault, and `MAXBITS = ∞` with `Capacity`, which is `RDR`'s. -/
theorem witness_FaultTable_parameters : State.reset.params.ktSize = 65536 ∧ State.reset.params.maxBits = none ∧
    afterExec State.reset (.mulm 0 0 0 0) (·.status.cause) = some 2#4 ∧ huge.status.flt = false ∧
    (huge.raise .capacity 0x04000000#32).status.cause = 5#4 := ⟨rfl, rfl, by decide, rfl, rfl⟩

/-- A value at and one above the capacity, and the values of `LDS` at the smallest capacity. -/
theorem witness_fits_boundary : fits wide.params (2 ^ 64 - 1) = true ∧ fits wide.params (2 ^ 64) = false ∧
    fits { ktSize := 1, maxBits := some 32 } 65535 = true := by decide

theorem witness_LdiLoadsThePayloadValue : [0xFFFFFFFF#32, 0xFFFFFFFF#32, 0#32].length ≤ 65535 ∧
    fits wide.params (limbsValue [0xFFFFFFFF#32, 0xFFFFFFFF#32, 0#32]) = true ∧
    fits wide.params (limbsValue [0#32, 0#32, 1#32]) = false := by decide

theorem witness_MovMva : fits wide.params (wide.reg 0) = true ∧ fits wide.params wide.acc = true ∧
    wide.reg 0 = 2 ^ 64 - 1 := by decide

/-- The last index that exists and the first that does not. -/
theorem witness_key_boundary : EngineInv loaded ∧ (3#16).toNat < loaded.params.ktSize ∧
    loaded.params.ktSize ≤ (4#16).toNat ∧ loaded.ktRead 3 = 16 ∧ fits loaded.params (loaded.ktRead 3) = true := ⟨witness_inv_loaded, by decide⟩

theorem witness_Gcd : fits wide.params (wide.reg 0) = true ∧ fits wide.params (wide.reg 1) = true ∧
    wide.reg 1 = 0 := by decide

/-- The moduli 2, 1 and 0, and a pair that is not coprime. -/
theorem witness_Inv : (fits loaded.params ((loaded.setReg 2 2).reg 2) = true ∧ 2 ≤ (loaded.setReg 2 2).reg 2 ∧
      Nat.gcd ((loaded.setReg 2 2).reg 2) ((loaded.setReg 2 2).reg 1) = 1) ∧
    (loaded.setReg 2 1).reg 2 < 2 ∧ loaded.reg 2 < 2 ∧
    (2 ≤ loaded.reg 0 ∧ Nat.gcd (loaded.reg 0) (loaded.reg 2) ≠ 1) := by decide

theorem witness_Mulm : fits loaded.params ((loaded.setReg 2 1).reg 2) = true ∧ (loaded.setReg 2 1).reg 2 ≠ 0 ∧
    loaded.reg 2 = 0 := by decide

/-- `MACB` with its bit 1 and 0, a sum that fits and one that does not, an index that exists and one that does not. -/
theorem witness_Macb : (0#16).toNat < wide.params.ktSize ∧ fits wide.params (wide.acc + wide.ktRead 0) = false ∧
    fits wide.params wide.acc = true ∧ fits loaded.params (loaded.acc + loaded.ktRead 3) = true ∧
    wide.params.ktSize ≤ (4#16).toNat := by decide

theorem witness_arithmetic : 2 ≤ 25 ∧ Nat.gcd 25 7 = 1 ∧ 2 ≤ 2 ∧ Nat.gcd 2 1 = 1 ∧ 1 ≤ 1 ∧
    (2 : Int) * 25 + (-7) * 7 = 1 ∧ emod (-7) 25 = inverse 25 7 := by decide

theorem witness_GcdIsTheLastRemainder : 0 < 25 + 10 ∧ 5 ∣ 25 ∧ 5 ∣ 10 ∧ gcdOf 25 10 = 5 := by decide

/-- Registers that `RDR` sends, of one limb and of none. -/
theorem witness_Rdr : nlimbs (loaded.reg 3) = 1 ∧ nlimbs (loaded.reg 2) = 0 := by decide

/-- The source's scenario with the words of some commands in `CQ`. -/
def running (is : List Instr) : State := loaded.setCq (encodeAll is)

theorem witness_inv_running (is : List Instr) : EngineInv (running is) := witness_inv_loaded.setCq _

/-- The terms of a block, one index twice. -/
theorem witness_AccumulatorSequence : (running [.aclr, .macb 3 true, .macb 2 false, .macb 3 true]).status.flt = false ∧
    (∀ x ∈ [(3#16, true), (2#16, false), (3#16, true)], x.1.toNat < loaded.params.ktSize) ∧
    (running [.aclr, .macb 3 true, .macb 2 false, .macb 3 true]).cq =
      encodeAll (.aclr :: [(3#16, true), (2#16, false), (3#16, true)].map fun x => .macb x.1 x.2) ++ [] ∧
    fits loaded.params ([(3#16, true), (2#16, false), (3#16, true)].map
      fun x => if x.2 then loaded.ktRead x.1.toNat else 0).sum = true := by
  refine ⟨rfl, ?_, rfl, by decide⟩
  simp only [List.forall_mem_cons]
  exact ⟨by decide, by decide, by decide, by simp⟩

/-- A payload with a zero limb on top, sent in and read back. -/
theorem witness_LdiThenRdr : (running [.ldi 4 [5#32, 0#32], .rdr 4]).status.flt = false ∧ [5#32, 0#32].length ≤ 65535 ∧
    (running [.ldi 4 [5#32, 0#32], .rdr 4]).cq = encodeAll [.ldi 4 [5#32, 0#32], .rdr 4] ++ [] ∧
    fits loaded.params (limbsValue [5#32, 0#32]) = true := by decide

/-- A whole block of `KT_SIZE` bits at the head of `CQ`, with the sum 33. -/
theorem witness_SubsetSum : EngineInv loaded ∧ loaded.status.flt = false ∧
    [true, false, true, true].length ≤ loaded.params.ktSize ∧
    (loaded.setCq (encodeAll (ssumCommands 6 [true, false, true, true]))).cq =
      encodeAll (ssumCommands 6 [true, false, true, true]) ++ [] ∧
    ((List.range 4).map fun j => if [true, false, true, true].getD j false then loaded.ktRead j else 0).sum = 33 ∧
    fits loaded.params 33 = true := ⟨witness_inv_loaded, by decide⟩

/-- The source's scenario: the cipher value is 47 and the product 21. -/
theorem witness_Trapdoor : 2 ≤ 25 ∧ Nat.gcd 25 7 = 1 ∧ [2, 3, 6, 13].sum < 25 ∧
    ((List.range 4).map fun j => if [true, false, true, true].getD j false then mulmod 7 ([2, 3, 6, 13].getD j 0) 25
      else 0).sum = 47 ∧ mulmod 47 (inverse 25 7) 25 = 21 := by decide

/-- `MAXBITS` infinite and finite, and a number at and below the bound. -/
theorem witness_CapacityCheck : State.reset.params.maxBits = none ∧ small.params.maxBits = some 64 ∧ 0 < 1 ∧
    bitlen 1 = 1 ∧ bitlen (2 ^ 64 - 1) = 64 ∧ bitlen (2 ^ 64) = 65 ∧ nlimbs (2 ^ 64) = 3 := by decide

theorem witness_SubsetSumIsTheSum : [true, false, true, true].length = [14, 21, 17, 16].length ∧
    (∀ b ∈ [false, false], b = false) := by decide

/-- `CLRF` outside the fault state, on a state the invariant holds of. -/
theorem witness_Clrf : EngineInv loaded ∧ loaded.status.flt = false ∧ afterExec loaded .clrf id = some loaded :=
  ⟨witness_inv_loaded, by decide⟩

/-- An empty and a non-empty `RQ` for the host's take. -/
theorem witness_HostActions : small.rq = [] ∧ (small.emit [1#32, 2#32]).rq = [1#32, 2#32] := by decide

theorem witness_limbs : (limbs (2 ^ 64)).getLast? = some 1#32 ∧ limbs 0 = [] := by decide

/-- `LDV` at the border of its two expansions. -/
theorem witness_Ldv : ldv 1 65535 = some (.lds 1 65535) ∧ ldv 1 65536 = some (.ldi 1 [0x00010000#32]) ∧
    fits wide.params 65536 = true := by decide

/-- `LDV` of a number of 65536 limbs is an assembly error. -/
theorem witness_Ldv_error : ldv 1 (2 ^ (32 * 65535)) = none := by
  have h := witness_limbs_boundary.1
  have h2 : ¬2 ^ (32 * 65535) < 65536 := by
    rw [not_lt]; exact (show 2 ^ 16 = 65536 from rfl) ▸ Nat.pow_le_pow_right (by decide) (by decide)
  rw [ldv, if_neg h2, if_neg (not_le.2 h)]

theorem witness_SearchAttempt : EngineInv (running [.lds 1 10, .gcd 2 0 1, .rds]) ∧
    (running [.lds 1 10, .gcd 2 0 1, .rds]).status.flt = false ∧ fits loaded.params 10 = true ∧
    searchAttempt 10 = some [.lds 1 10, .gcd 2 0 1, .rds] ∧
    (running [.lds 1 10, .gcd 2 0 1, .rds]).cq = encodeAll [.lds 1 10, .gcd 2 0 1, .rds] ++ [] ∧
    Nat.gcd (loaded.reg 0) 10 = 5 ∧ Nat.gcd (loaded.reg 0) 7 = 1 :=
  ⟨witness_inv_running _, by decide⟩

theorem witness_PublicKeyEntry : EngineInv (running [.lds 4 6, .mulm 5 1 4 0, .kst 5 3]) ∧
    (running [.lds 4 6, .mulm 5 1 4 0, .kst 5 3]).status.flt = false ∧ loaded.reg 0 ≠ 0 ∧
    fits loaded.params 6 = true ∧ (3#16).toNat < loaded.params.ktSize ∧
    publicKeyEntry 6 3 = some [.lds 4 6, .mulm 5 1 4 0, .kst 5 3] ∧
    (running [.lds 4 6, .mulm 5 1 4 0, .kst 5 3]).cq = encodeAll [.lds 4 6, .mulm 5 1 4 0, .kst 5 3] ++ [] :=
  ⟨witness_inv_running _, by decide⟩

theorem witness_DecryptFirstStep : EngineInv (running [.lds 6 47, .mulm 7 6 3 0, .rdr 7]) ∧
    (running [.lds 6 47, .mulm 7 6 3 0, .rdr 7]).status.flt = false ∧ loaded.reg 0 ≠ 0 ∧
    nlimbs (loaded.reg 0) ≤ 65535 ∧ fits loaded.params 47 = true ∧
    decryptFirstStep 47 = some [.lds 6 47, .mulm 7 6 3 0, .rdr 7] ∧
    (running [.lds 6 47, .mulm 7 6 3 0, .rdr 7]).cq = encodeAll [.lds 6 47, .mulm 7 6 3 0, .rdr 7] ++ [] :=
  ⟨witness_inv_running _, by decide⟩

end Sys2Proof.Machine
end

section
/-! SUPPORT. What the exact arithmetic of rule R9 does: the value of a limb sequence, and `emod` as a remainder. -/
namespace Sys2Proof.Machine

/-! ### Limb sequences (rules R9, R43, R44) -/

@[simp] theorem length_limbs (v : Nat) : (limbs v).length = nlimbs v := by simp [limbs]

@[simp] theorem toNat_limb (v k : Nat) : (limb v k).toNat = v / 2 ^ (32 * k) % 2 ^ 32 := by simp [limb]

/-- The second of two joined sequences counts from the place where the first ends. -/
theorem limbsValue_append (ls ls' : List Word) :
    limbsValue (ls ++ ls') = limbsValue ls + 2 ^ (32 * ls.length) * limbsValue ls' := by
  induction ls with
  | nil => simp [limbsValue]
  | cons l ls ih =>
    rw [List.cons_append, limbsValue, limbsValue, ih, List.length_cons, Nat.mul_succ, Nat.pow_add]
    ring

@[simp] theorem limbsValue_replicate_zero (k : Nat) : limbsValue (List.replicate k 0#32) = 0 := by
  induction k with
  | zero => rfl
  | succ k ih => simp [List.replicate_succ, limbsValue, ih]

/-- The lowest `n` limbs of a number hold its remainder by `2^(32·n)`. -/
theorem limbsValue_lowest_limbs (v n : Nat) : limbsValue ((List.range n).map (limb v)) = v % 2 ^ (32 * n) := by
  induction n with
  | zero => simp [limbsValue, Nat.mod_one]
  | succ n ih =>
    simp only [List.range_succ, List.map_append, List.map_singleton, limbsValue_append, ih, List.length_map,
      List.length_range, limbsValue, toNat_limb, Nat.mul_zero, Nat.add_zero]
    rw [Nat.mul_succ, Nat.pow_add, Nat.mod_mul]

@[simp] theorem limbsValue_limbs (v : Nat) : limbsValue (limbs v) = v := by
  rw [limbs, limbsValue_lowest_limbs, Nat.mod_eq_of_lt ((nlimbs_le_iff v _).1 le_rfl)]

/-- Of a number that needs `n + 1` limbs, limb `n` is not 0: else `n` limbs would hold it. -/
theorem limb_top_ne_zero {v n : Nat} (h : nlimbs v = n + 1) : limb v n ≠ 0 := by
  have hlt : v < 2 ^ (32 * n) * 2 ^ 32 := by
    rw [← Nat.pow_add, ← Nat.mul_succ, ← nlimbs_le_iff]; exact h.le
  have hge : 2 ^ (32 * n) ≤ v := by
    rw [← not_lt, ← nlimbs_le_iff]; omega
  have htop : (limb v n).toNat = v / 2 ^ (32 * n) := by
    rw [toNat_limb, Nat.mod_eq_of_lt (Nat.div_lt_of_lt_mul hlt)]
  intro h0
  rw [h0] at htop
  exact (Nat.div_pos hge (Nat.two_pow_pos _)).ne htop

theorem limbs_getLast?_ne_zero {v : Nat} {l : Word} (h : (limbs v).getLast? = some l) : l ≠ 0 := by
  rw [limbs, List.getLast?_map, List.getLast?_range] at h
  cases hn : nlimbs v with
  | zero => simp [hn] at h
  | succ n =>
    obtain rfl : limb v n = l := by simpa [hn] using h
    exact limb_top_ne_zero hn

/-! ### Sizes (rules R9, R28) -/

theorem fits_of_maxBits_none {p : Params} (hp : p.maxBits = none) (v : Nat) : fits p v = true := by
  simp [fits, hp]

theorem fits_iff_of_maxBits_some {p : Params} {n : Nat} (hp : p.maxBits = some n) (v : Nat) :
    fits p v = true ↔ v < 2 ^ n := by
  simp [fits, hp, bitlen_le_iff]

theorem lt_two_pow_bitlen (v : Nat) : v < 2 ^ bitlen v := (bitlen_le_iff v _).1 le_rfl

theorem two_pow_bitlen_sub_one_le {v : Nat} (hv : 0 < v) : 2 ^ (bitlen v - 1) ≤ v := by
  have hpos : ¬bitlen v ≤ 0 := by rw [bitlen_le_iff, Nat.pow_zero]; omega
  rw [← not_lt, ← bitlen_le_iff]
  omega

/-! ### Residues (rule R9) -/

theorem natCast_emod (z : Int) {m : Nat} (hm : 1 ≤ m) : (emod z m : Int) = z % m :=
  Int.toNat_of_nonneg (Int.emod_nonneg z (by omega))

/-- Truncated and floored remainders are congruent. -/
theorem tmod_emod_self (z m : Int) : Int.tmod z m % m = z % m := by
  conv_rhs => rw [← Int.tmod_add_mul_tdiv z m, Int.add_mul_emod_self_left]

end Sys2Proof.Machine
end

section
/-! PROOFS of the statements about limbs, sizes, residues and products of rule R9. -/
namespace Sys2Proof.Machine

/-- Settles O51: the limbs up to `nlimbs v` hold `v` modulo a power of two above `v`, and the top one is not 0 because
one limb fewer would not hold `v`. -/
theorem limbsReadBack : Obligations.LimbsReadBack := fun v =>
  ⟨length_limbs v, limbsValue_limbs v, fun _ => limbs_getLast?_ne_zero, fun ws k => by simp [limbsValue_append]⟩

/-- Settles O37: the first `mod` leaves a number congruent to `z` and above `-m`, so the second is applied to a number
that is not negative, where every `mod` is the Euclidean one. -/
theorem normalisationFormula : Obligations.NormalisationFormula := by
  intro z m hm
  have hm0 : (0 : Int) ≤ m := Int.natCast_nonneg m
  rw [natCast_emod z hm]
  constructor
  · rw [Int.fmod_eq_emod_of_nonneg _ hm0, Int.fmod_eq_emod_of_nonneg _ hm0, Int.add_emod_right, Int.emod_emod]
  · have hpos : 0 ≤ Int.tmod z m + m := by
      have := Int.lt_tmod_of_pos z (b := m) (by omega)
      omega
    rw [Int.tmod_eq_emod_of_nonneg hpos, Int.add_emod_right, tmod_emod_self]

/-- Settles O39: the quotient of the exact product by `m` is the multiple that is taken off. -/
theorem modularProductIsExact : Obligations.ModularProductIsExact := by
  intro a b m hm
  refine ⟨Nat.mod_lt _ hm, ⟨a * b / m, (Nat.div_add_mod' (a * b) m).symm⟩, ?_, Nat.mul_mod a b m⟩
  rw [mulmod, mulmod, Nat.mul_comm]

/-- Settles O57, from `bitlen_le_iff` and `nlimbs_le_iff`. -/
theorem capacityCheckIsBitLength : Obligations.CapacityCheckIsBitLength :=
  ⟨fun _ v hp => fits_of_maxBits_none hp v, fun _ v _ hp => fits_iff_of_maxBits_some hp v, rfl,
    fun v hv => ⟨two_pow_bitlen_sub_one_le hv, lt_two_pow_bitlen v⟩, fun v l => (nlimbs_le_iff v l).symm⟩

end Sys2Proof.Machine
end

section
/-! SUPPORT. What one command can do to each kind of state of rule R20, and what every step does to the invariant. -/
namespace Sys2Proof.Machine

/-! ### Which effects change which state (rule R20) -/

namespace Effect

variable {i : Instr} {s t : State}

theorem regs_eq_or_writer (h : Effect i s t) :
    SameRegs s t ∨ mnemonicOf i ∈ ["LDS", "LDI", "MOV", "KLD", "MVA", "GCD", "INV", "MULM", "RST"] := by
  cases h with
  | reg rd v hv hi => right; simp only [List.mem_cons] at hi ⊢; tauto
  | gcd rd g hg hi => right; simp [hi]
  | rst hi => right; simp [hi, mnemonicOf]
  | _ => exact .inl fun _ => rfl

theorem acc_eq_or_writer (h : Effect i s t) : t.acc = s.acc ∨ mnemonicOf i ∈ ["ACLR", "MACB", "RST"] := by
  cases h with
  | acc v hv hi => exact .inr (List.mem_append_left ["RST"] hi)
  | rst hi => right; simp [hi, mnemonicOf]
  | _ => exact .inl rfl

theorem keys_eq_or_writer (h : Effect i s t) : SameKeys s t ∨ mnemonicOf i ∈ ["KST", "RST"] := by
  cases h with
  | key idx v hidx hv hi => right; simp [hi]
  | rst hi => right; simp [hi, mnemonicOf]
  | _ => exact .inl fun _ => rfl

theorem cp_eq_or_writer (h : Effect i s t) : t.status.cp = s.status.cp ∨ mnemonicOf i ∈ ["GCD", "RST"] := by
  cases h with
  | gcd rd g hg hi => right; simp [hi]
  | rst hi => right; simp [hi, mnemonicOf]
  | _ => exact .inl rfl

theorem rq_eq_or_writer (h : Effect i s t) : t.rq = s.rq ∨ mnemonicOf i ∈ ["RDR", "RDS"] := by
  cases h with
  | rdr ra hi hl => right; simp [hi, mnemonicOf]
  | rds hi => right; simp [hi, mnemonicOf]
  | _ => exact .inl rfl

/-- A change of `FLT`, `CAUSE` or `FCMD` is a fault entry, a fault return or a reset. -/
theorem fault_or_clear_of_ne (h : Effect i s t)
    (hne : t.fcmd ≠ s.fcmd ∨ t.status.cause ≠ s.status.cause ∨ t.status.flt ≠ s.status.flt) :
    t.status.flt = true ∨ mnemonicOf i ∈ ["CLRF", "RST"] := by
  cases h with
  | raised => exact .inl rfl
  | clrf hi => right; simp [hi, mnemonicOf]
  | rst hi => right; simp [hi, mnemonicOf]
  | _ => simp at hne

end Effect

/-! ### The invariant -/

namespace EngineInv

/-- Every write of a command is of a value that fits, and to an entry that exists; so the invariant is kept. -/
theorem of_effect {i : Instr} {s t : State} (h : EngineInv s) (he : Effect i s t) : EngineInv t := by
  cases he with
  | same => exact h
  | raised => exact h.raise _ _
  | reg rd v hv => exact h.setReg rd hv
  | gcd rd g hg => exact (h.setReg rd hg).setCp _
  | acc v hv => exact h.setAcc hv
  | key idx v hidx hv => exact h.ktSet hidx hv
  | rdr => exact h.emit _
  | rds => exact h.emit _
  | clrf => exact h.clearFault
  | rst => exact clearAll h.legal

theorem of_exec {i : Instr} {s t : State} (h : EngineInv s) (he : exec i s = .next t) : EngineInv t :=
  h.of_effect (exec_effect he)

theorem of_step {s t : State} (h : EngineInv s) (hs : step s = .next t) : EngineInv t := by
  obtain ⟨-, rfl⟩ | ⟨_, w, rest, -, -, ⟨-, rfl⟩ | ⟨-, rfl⟩⟩ | ⟨i, rest, -, ⟨-, -, rfl⟩ | ⟨-, he⟩⟩ := step_cases hs
  · exact h
  · exact h.setCq rest
  · exact (h.setCq rest).raise .illegalCmd w
  · exact h.setCq rest
  · exact (h.setCq rest).of_exec he

/-- The reset state is a zeroised state with legal parameters. -/
theorem resetWith {p : Params} (hp : Config.legal p = true) : EngineInv (State.resetWith p) :=
  clearAll (s := State.resetWith p) hp

end EngineInv

/-! ### Reset (rules R31, R142, R200) -/

theorem hardwareReset_zeroised (s : State) : Zeroised s.hardwareReset :=
  ⟨reg_hardwareReset s, rfl, ktRead_hardwareReset s, rfl, rfl, rfl, rfl⟩

theorem hardwareReset_eq_resetWith (s : State) : s.hardwareReset = State.resetWith s.params := rfl

/-- `RST` is hardware reset with both streams put back. -/
theorem exec_rst_eq_hardwareReset (s : State) : exec .rst s = .next ((s.hardwareReset.setCq s.cq).emit s.rq) := rfl

end Sys2Proof.Machine
end

section
/-! PROOFS of the statements of the engine's state: the invariant, which command writes what, and reset. -/
namespace Sys2Proof.Machine

/-- Settles O17, by the cases of a step; a command executed keeps the invariant because each effect does. -/
theorem stepKeepsInvariant : Obligations.StepKeepsInvariant := fun _ _ h hs => h.of_step hs

/-- Settles O22: a kind of state that changed was changed by an effect that writes it, and the effect names its
commands. -/
theorem commandsChangeOnlyTheirState : Obligations.CommandsChangeOnlyTheirState := by
  intro i s t h
  have he : Effect i s t := exec_effect h
  exact ⟨he.regs_eq_or_writer.resolve_left, he.acc_eq_or_writer.resolve_left, he.keys_eq_or_writer.resolve_left,
    he.cp_eq_or_writer.resolve_left, he.rq_eq_or_writer.resolve_left, he.fault_or_clear_of_ne, exec_keeps_stream h⟩

/-- Settles O18, the default parameters being legal. -/
theorem resetMeetsInvariant : Obligations.ResetMeetsInvariant :=
  ⟨fun _ => EngineInv.resetWith, EngineInv.resetWith (by decide)⟩

/-- Settles O49: the state after hardware reset is given whole, and `RST` is the same with both streams put back. -/
theorem hardwareResetLeavesTheResetState : Obligations.HardwareResetLeavesTheResetState := fun s =>
  ⟨s.hardwareReset, rfl, hardwareReset_zeroised s, rfl, rfl, hardwareReset_eq_resetWith s, rfl, rfl,
    exec_rst_eq_hardwareReset s⟩

end Sys2Proof.Machine
end

section
/-! SUPPORT. The command stream: the words of a command with others behind them, that a step takes words off `CQ`, and
that what a command does is the same whatever stands behind it (rules R47, R49, R69). -/
namespace Sys2Proof

/-! ### One stream position, with words behind it -/

theorem eq_nil_of_decode_idle {q : List Word} (h : decode q = .idle) : q = [] := by
  cases q with
  | nil => rfl
  | cons w ws =>
    simp only [decode] at h
    split at h
    · cases h
    · cases h
    · split at h <;> cases h

/-- An `LDI` whose payload has arrived is taken together with it (rule R68). -/
theorem decode_ldi {w : Word} {rd : Reg} {len : BitVec 16} {ws : List Word} (h : decodeHead w = .ok (.ldi rd len))
    (hlen : len.toNat ≤ ws.length) :
    decode (w :: ws) = .command (.ldi rd (ws.take len.toNat)) (ws.drop len.toNat) := by
  simp [decode, h, Nat.not_lt.2 hlen]

theorem decode_command_append {q rest : List Word} {i : Instr} (h : decode q = .command i rest) (ws : List Word) :
    decode (q ++ ws) = .command i (rest ++ ws) := by
  obtain ⟨w, tail, rfl, ⟨hw, rfl⟩ | ⟨rd, len, hw, hlen, rfl, rfl⟩⟩ := decode_command_cases h
  · exact decode_plain hw _
  · rw [List.cons_append, decode_ldi hw (hlen.trans (by simp)), List.take_append_of_le_length hlen,
      List.drop_append_of_le_length hlen]

theorem decode_illegal_append {q rest : List Word} {w : Word} {e : DecodeError} (h : decode q = .illegal e w rest)
    (ws : List Word) : decode (q ++ ws) = .illegal e w (rest ++ ws) := by
  obtain ⟨rfl, hw⟩ := decode_illegal_cases h
  exact decode_error hw _

/-! ### The words of a command -/

theorem decodeHead_encodeHead_ldi (rd : Reg) (payload : List Word) :
    decodeHead (encodeHead (.ldi rd payload)) = .ok (.ldi rd (BitVec.ofNat 16 payload.length)) := by
  simp [decodeHead, decodeRegImm, needZero, encodeHead]

theorem decodeHead_encodeHead {i : Instr} (h : ∀ rd payload, i ≠ .ldi rd payload) :
    decodeHead (encodeHead i) = .ok (.plain i) := by
  cases i with
  | ldi rd payload => exact absurd rfl (h rd payload)
  | _ => simp [decodeHead, decodeBare, decodeRegImm, needZero, encodeHead]

/-- The words of a well-formed command decode to it, whatever stands behind them. -/
theorem decode_encode_append {i : Instr} (hi : i.WellFormed = true) (rest : List Word) :
    decode (encode i ++ rest) = .command i rest := by
  cases i with
  | ldi rd payload =>
    have hlen : (BitVec.ofNat 16 payload.length).toNat = payload.length := by
      simp only [Instr.WellFormed, Config.maxXferLimbs, decide_eq_true_eq] at hi
      rw [BitVec.toNat_ofNat, Nat.mod_eq_of_lt (by omega)]
    have hd := decode_ldi (ws := payload ++ rest) (decodeHead_encodeHead_ldi rd payload) (by simp [hlen])
    rwa [hlen, List.take_left, List.drop_left] at hd
  | _ => exact decode_plain (decodeHead_encodeHead (by simp)) rest

theorem encodeAll_cons (i : Instr) (is : List Instr) (rest : List Word) :
    encodeAll (i :: is) ++ rest = encode i ++ (encodeAll is ++ rest) := by
  simp [encodeAll]

namespace Machine

/-! ### A step by what stands at the head of `CQ` -/

theorem step_of_illegal {s : State} {e : DecodeError} {w : Word} {rest : List Word}
    (hd : decode s.cq = .illegal e w rest) : step s = .next (takeIllegal w (s.setCq rest)) := by
  simp [step, hd]

theorem step_of_command {s : State} {i : Instr} {rest : List Word} (hd : decode s.cq = .command i rest) :
    step s = if discards i s then .next (s.setCq rest) else exec i (s.setCq rest) := by
  simp [step, hd]

theorem exec_next (i : Instr) (s : State) : ∃ t, exec i s = .next t := by
  cases i <;> exact ⟨_, rfl⟩

theorem step_next (s : State) : ∃ t, step s = .next t := by
  cases hd : decode s.cq with
  | idle => exact ⟨s, by simp [step, hd]⟩
  | waiting rd len => exact ⟨s, by simp [step, hd]⟩
  | illegal e w rest => exact ⟨_, step_of_illegal hd⟩
  | command i rest =>
    rw [step_of_command hd]
    split
    · exact ⟨_, rfl⟩
    · exact exec_next i _

theorem idle_or_waiting {s : State} (h : s.cq = [] ∨ ∃ rd len, decode s.cq = .waiting rd len) :
    s.idle = true ∨ s.waiting = true := by
  obtain h | ⟨rd, len, h⟩ := h
  · exact .inl (by simp [State.idle, h])
  · exact .inr (by simp [State.waiting, h])

/-- A step that does not find the engine idle or waiting takes at least one word off `CQ` (rule R69). -/
theorem step_cq_length_lt {s t : State} (hs : ¬(s.idle = true ∨ s.waiting = true)) (h : step s = .next t) :
    t.cq.length < s.cq.length := by
  obtain ⟨hstop, -⟩ | ⟨_, w, rest, hcq, -, ⟨-, rfl⟩ | ⟨-, rfl⟩⟩ | ⟨i, rest, hd, ⟨-, -, rfl⟩ | ⟨-, he⟩⟩ := step_cases h
  · exact absurd (idle_or_waiting hstop) hs
  · simp [hcq]
  · simp [hcq]
  · exact decode_command_length hd
  · rw [(exec_keeps_stream he).1]
    exact decode_command_length hd

/-! ### The commands that move numbers through the streams (rules R92, R94) -/

theorem exec_ldi_of_fits {s : State} {payload : List Word} (rd : Reg) (h : fits s.params (limbsValue payload) = true) :
    exec (.ldi rd payload) s = .next (s.setReg rd (limbsValue payload)) :=
  congrArg Host.Outcome.next (storing_of_fits h)

theorem exec_rdr_of_lt {s : State} {ra : Reg} (h : Config.maxXferLimbs < nlimbs (s.reg ra)) :
    exec (.rdr ra) s = .next (s.raise .capacity (encodeHead (.rdr ra))) :=
  congrArg Host.Outcome.next (if_pos h)

theorem exec_rdr_of_le {s : State} {ra : Reg} (h : nlimbs (s.reg ra) ≤ Config.maxXferLimbs) :
    exec (.rdr ra) s = .next (s.emit (rdrHeader (nlimbs (s.reg ra)) :: limbs (s.reg ra))) :=
  congrArg Host.Outcome.next (if_neg (Nat.not_lt.2 h))

/-! ### Words appended to `CQ` beside what a command does -/

theorem takeIllegal_append (w : Word) (s : State) (ws : List Word) :
    takeIllegal w (s.append ws) = (takeIllegal w s).append ws := by
  unfold takeIllegal
  rw [append_status]
  split <;> rfl

theorem discards_append (i : Instr) (s : State) (ws : List Word) : discards i (s.append ws) = discards i s := rfl

theorem storing_append (s done : State) (cmd : Word) (v : Nat) (ws : List Word) :
    (s.append ws).storing cmd v (done.append ws) = (s.storing cmd v done).append ws := by
  unfold State.storing
  rw [append_params]
  split <;> rfl

theorem withKey_append (s access : State) (cmd : Word) (idx : BitVec 16) (ws : List Word) :
    (s.append ws).withKey cmd idx (access.append ws) = (s.withKey cmd idx access).append ws := by
  unfold State.withKey keyLegal
  rw [append_params]
  split <;> rfl

theorem raise_append (s : State) (k : FaultKind) (cmd : Word) (ws : List Word) :
    (s.append ws).raise k cmd = (s.raise k cmd).append ws := rfl

theorem setReg_append (s : State) (rd : Reg) (v : Nat) (ws : List Word) :
    (s.append ws).setReg rd v = (s.setReg rd v).append ws := rfl

theorem setCp_append (s : State) (cp : Bool) (ws : List Word) : (s.append ws).setCp cp = (s.setCp cp).append ws := rfl

theorem emit_append (s : State) (out ws : List Word) : (s.append ws).emit out = (s.emit out).append ws := rfl

theorem writeReg_append (s : State) (cmd : Word) (rd : Reg) (v : Nat) (ws : List Word) :
    (s.append ws).writeReg cmd rd v = (s.writeReg cmd rd v).append ws := storing_append s (s.setReg rd v) cmd v ws

theorem writeAcc_append (s : State) (cmd : Word) (v : Nat) (ws : List Word) :
    (s.append ws).writeAcc cmd v = (s.writeAcc cmd v).append ws := storing_append s (s.setAcc v) cmd v ws

theorem writeKey_append (s : State) (cmd : Word) (idx v : Nat) (ws : List Word) :
    (s.append ws).writeKey cmd idx v = (s.writeKey cmd idx v).append ws := storing_append s (s.ktSet idx v) cmd v ws

/-- What a command does does not depend on `CQ` (rules R47, R49): its operands are no part of `CQ`, and its writes leave
`CQ` alone. -/
theorem exec_append {i : Instr} {s t : State} (h : exec i s = .next t) (ws : List Word) :
    exec i (s.append ws) = .next (t.append ws) := by
  cases i with
  | nop => cases h; rfl
  | lds rd imm => cases h; exact congrArg Host.Outcome.next (writeReg_append s _ rd _ ws)
  | ldi rd payload => cases h; exact congrArg Host.Outcome.next (writeReg_append s _ rd _ ws)
  | mov rd ra => cases h; exact congrArg Host.Outcome.next (writeReg_append s _ rd _ ws)
  | rdr ra =>
    rcases Nat.lt_or_ge Config.maxXferLimbs (nlimbs (s.reg ra)) with hl | hl
    · rw [exec_rdr_of_lt hl] at h
      cases h
      exact exec_rdr_of_lt (s := s.append ws) hl
    · rw [exec_rdr_of_le hl] at h
      cases h
      exact exec_rdr_of_le (s := s.append ws) hl
  | kst ra idx => cases h; simp only [exec, execKst, reg_append, writeKey_append, withKey_append]
  | kld rd idx => cases h; simp only [exec, execKld, State.keyOperand, ktRead_append, writeReg_append, withKey_append]
  | mva rd => cases h; exact congrArg Host.Outcome.next (writeReg_append s _ rd _ ws)
  | gcd rd ra rb => cases h; simp only [exec, execGcd, reg_append, setReg_append, setCp_append, storing_append]
  | inv rd rw rm =>
    cases h
    simp only [exec, execInv, reg_append, raise_append, writeReg_append, apply_ite (State.append · ws)]
  | mulm rd ra rb rm =>
    cases h
    simp only [exec, execMulm, reg_append, raise_append, writeReg_append, apply_ite (State.append · ws)]
  | aclr => cases h; exact congrArg Host.Outcome.next (writeAcc_append s _ 0 ws)
  | macb idx bit =>
    cases h
    simp only [exec, execMacb, State.macbTerm, State.keyOperand, ktRead_append, append_acc, writeAcc_append,
      withKey_append]
  | rds => cases h; rfl
  | clrf => cases h; rfl
  | rst => cases h; rfl

end Machine
end Sys2Proof
end

section
/-! SUPPORT. The response stream: the two kinds of response, cutting `RQ` by the headers, what a step sends, and the
invariant under the host's actions. -/
namespace Sys2Proof.Machine

/-! ### Responses (rules R52, R71, R72) -/

theorem opField_rdrHeader (n : Nat) : opField (rdrHeader n) = 0x04#8 := by
  apply BitVec.eq_of_toNat_eq
  rw [opField, field_toNat, rdrHeader_toNat, BitVec.toNat_ofNat]
  omega

theorem immField_rdrHeader (n : Nat) : immField (rdrHeader n) = BitVec.ofNat 16 n := by
  apply BitVec.eq_of_toNat_eq
  rw [immField, field_toNat, rdrHeader_toNat, BitVec.toNat_ofNat]
  omega

theorem opField_statusWord (st : Status) : opField (statusWord st) = 0x20#8 := by
  apply BitVec.eq_of_toNat_eq
  have hcause := st.cause.isLt
  have hcp := st.cp.toNat_lt
  have hflt := st.flt.toNat_lt
  rw [opField, field_toNat, statusWord_toNat, BitVec.toNat_ofNat]
  omega

theorem rdrHeader_eq_ofNat {n : Nat} (hn : n ≤ Config.maxXferLimbs) :
    rdrHeader n = BitVec.ofNat 32 (0x04000000 + n) := by
  apply BitVec.eq_of_toNat_eq
  rw [rdrHeader_toNat, BitVec.toNat_ofNat]
  simp only [Config.maxXferLimbs] at hn
  omega

theorem isResponse_cons_iff (h : Word) (behind : List Word) :
    isResponse (h :: behind) = true ↔ responseLength h = some behind.length := by
  simp [isResponse]

theorem isResponse_ne_nil {r : List Word} (hr : isResponse r = true) : r ≠ [] := by
  rintro rfl
  cases hr

theorem isResponse_rdr {v : Nat} (hv : nlimbs v ≤ Config.maxXferLimbs) :
    isResponse (rdrHeader (nlimbs v) :: limbs v) = true := by
  have hlen : nlimbs v % 2 ^ 16 = nlimbs v := Nat.mod_eq_of_lt (Nat.lt_succ_of_le hv)
  rw [isResponse_cons_iff, responseLength, if_pos (opField_rdrHeader _), immField_rdrHeader, BitVec.toNat_ofNat, hlen,
    length_limbs]

theorem isResponse_rds (st : Status) (fcmd : Word) : isResponse [statusWord st, fcmd] = true := by
  simp [isResponse_cons_iff, responseLength, opField_statusWord]

/-- The host cuts one response off `RQ` when the header is one and its words are there, and goes on behind it. -/
theorem cutResponses_cons_iff (fuel : Nat) (h : Word) (behind : List Word) (rs : List (List Word)) :
    cutResponses (fuel + 1) (h :: behind) = some rs ↔
      ∃ n rs', responseLength h = some n ∧ n ≤ behind.length ∧ cutResponses fuel (behind.drop n) = some rs' ∧
        rs = (h :: behind.take n) :: rs' := by
  simp only [cutResponses]
  cases hn : responseLength h with
  | none => simp
  | some n =>
    rcases Nat.lt_or_ge behind.length n with hlt | hle
    · simp [hlt]
    · simp [Nat.not_lt.2 hle, hle, eq_comm]

@[simp] theorem cutResponses_nil (fuel : Nat) : cutResponses fuel [] = some [] := by
  cases fuel <;> rfl

theorem cutResponses_response {r : List Word} (hr : isResponse r = true) (fuel : Nat) :
    cutResponses (fuel + 1) r = some [r] := by
  cases r with
  | nil => simp [isResponse] at hr
  | cons h behind =>
    rw [cutResponses_cons_iff]
    exact ⟨_, [], (isResponse_cons_iff h behind).1 hr, le_rfl, by simp, by simp⟩

/-- What can be cut into responses can be cut with one whole response behind it, into the same responses and that one:
cutting takes at least the header each time, so more fuel than there are words is enough. -/
theorem cutResponses_append_response {r : List Word} (hr : isResponse r = true) {fuel fuel' : Nat} {q : List Word}
    {rs : List (List Word)} (hq : cutResponses fuel q = some rs) (hfuel : q.length ≤ fuel') :
    cutResponses (fuel' + 1) (q ++ r) = some (rs ++ [r]) := by
  induction fuel, q using cutResponses.induct generalizing fuel' rs with
  | case1 fuel =>
    obtain rfl : [] = rs := by simpa using hq
    exact cutResponses_response hr fuel'
  | case2 h behind => cases hq
  | case3 fuel h behind hnone => simp [cutResponses, hnone] at hq
  | case4 fuel h behind n hn hlt => simp [cutResponses, hn, hlt] at hq
  | case5 fuel h behind n hn hge ih =>
    obtain ⟨n', rs', hn', hle, hcut, rfl⟩ := (cutResponses_cons_iff fuel h behind rs).1 hq
    obtain rfl : n = n' := by simpa [hn] using hn'
    obtain ⟨m, rfl⟩ : ∃ m, fuel' = m + 1 := Nat.exists_eq_add_one.2 (Nat.zero_lt_of_lt hfuel)
    have hlen : (behind.drop n).length ≤ m := by
      simp only [List.length_cons, List.length_drop] at hfuel ⊢
      omega
    rw [List.cons_append, cutResponses_cons_iff]
    refine ⟨n, rs' ++ [r], hn, hle.trans (by simp), ?_, ?_⟩
    · rw [List.drop_append_of_le_length hle]
      exact ih hcut hlen
    · rw [List.take_append_of_le_length hle, List.cons_append]

/-! ### What a step sends -/

/-- A command leaves `RQ` alone, or it is `RDR` or `RDS`, sends one whole response whose header repeats the opcode, and
leaves `STATUS` alone. -/
theorem Effect.rq_eq_or_response {i : Instr} {s t : State} (h : Effect i s t) :
    t.rq = s.rq ∨ ∃ r, t.rq = s.rq ++ r ∧ isResponse r = true ∧ t.status = s.status ∧
      ((∃ ra, i = .rdr ra) ∧ r.head?.map opField = some 0x04#8 ∨ i = .rds ∧ r.head?.map opField = some 0x20#8) := by
  cases h with
  | rdr ra hi hl =>
    exact .inr ⟨_, rfl, isResponse_rdr hl, rfl, .inl ⟨⟨ra, hi⟩, congrArg some (opField_rdrHeader _)⟩⟩
  | rds hi => exact .inr ⟨_, rfl, isResponse_rds _ _, rfl, .inr ⟨hi, congrArg some (opField_statusWord _)⟩⟩
  | _ => exact .inl rfl

/-! ### Numbers through the streams (rule R44) -/

theorem limbsValue_lt (ls : List Word) : limbsValue ls < 2 ^ (32 * ls.length) := by
  induction ls with
  | nil => simp [limbsValue]
  | cons l ls ih =>
    have hl := l.isLt
    rw [limbsValue, List.length_cons, Nat.mul_succ, Nat.pow_add]
    omega

theorem nlimbs_limbsValue_le (ls : List Word) : nlimbs (limbsValue ls) ≤ ls.length :=
  (nlimbs_le_iff _ _).2 (limbsValue_lt ls)

/-! ### The host's side of the invariant (rule R50) -/

namespace EngineInv

/-- A host action changes only a stream, or leaves the reset state. -/
theorem of_hostAct {a : HostAction} {s t : State} {sees : HostSees} (h : EngineInv s)
    (ha : hostAct a s = some (sees, t)) : EngineInv t := by
  cases a with
  | append w =>
    cases ha
    exact h.setCq _
  | take =>
    cases hrq : s.rq with
    | nil => simp [hostAct, hrq] at ha
    | cons w ws =>
      obtain ⟨-, rfl⟩ : HostSees.word w = sees ∧ { s with rq := ws } = t := by simpa [hostAct, hrq] using ha
      exact { h with }
  | reset =>
    cases ha
    exact resetWith h.legal
  | observe =>
    cases ha
    exact h

theorem of_happen {e : Event} {s t : State} (h : EngineInv s) (he : happen e s = some t) : EngineInv t := by
  cases e with
  | engine =>
    obtain ⟨u, hu⟩ := step_next s
    obtain rfl : u = t := by simpa [happen, hu, nextState] using he
    exact h.of_step hu
  | host a =>
    obtain ⟨⟨sees, u⟩, ha, rfl⟩ := Option.map_eq_some_iff.1 he
    exact h.of_hostAct ha

theorem of_happenAll {es : List Event} {s t : State} (h : EngineInv s) (hes : happenAll es s = some t) :
    EngineInv t := by
  induction es generalizing s with
  | nil =>
    cases hes
    exact h
  | cons e es ih =>
    obtain ⟨u, he, hes⟩ := Option.bind_eq_some_iff.1 hes
    exact ih (h.of_happen he) hes

end EngineInv

end Sys2Proof.Machine
end

section
/-! PROOFS of the statements of the streams: what a step takes from `CQ` and sends to `RQ`, the host, and runs. -/
namespace Sys2Proof.Machine

/-- Settles O19: every event keeps the invariant, and the reset state has it. -/
theorem everyRunKeepsInvariant : Obligations.EveryRunKeepsInvariant :=
  ⟨fun _ _ _ h he => h.of_happen he, fun _ _ _ hp hes => (EngineInv.resetWith hp).of_happenAll hes⟩

/-- Settles O15: the decoder cuts off the same command with words behind it, and what is done with the command does not
look at `CQ`. -/
theorem stepIgnoresLaterWords : Obligations.StepIgnoresLaterWords := by
  intro s t ws hidle hwait h
  cases hd : decode s.cq with
  | idle => simp [State.idle, eq_nil_of_decode_idle hd] at hidle
  | waiting rd len => simp [State.waiting, hd] at hwait
  | illegal e w rest =>
    rw [step_of_illegal hd] at h
    cases h
    rw [step_of_illegal (decode_illegal_append hd ws)]
    exact congrArg Host.Outcome.next (takeIllegal_append w (s.setCq rest) ws)
  | command i rest =>
    rw [step_of_command hd] at h
    rw [step_of_command (decode_command_append hd ws), discards_append]
    by_cases hdis : discards i s = true
    · rw [if_pos hdis] at h ⊢
      cases h
      rfl
    · rw [if_neg hdis] at h ⊢
      exact exec_append h ws

/-- Settles O16, by induction on the number of words in `CQ`, of which every step takes one unless it finds the engine
idle or waiting. -/
theorem everyRunEnds : Obligations.EveryRunEnds := by
  intro s
  induction hn : s.cq.length using Nat.strong_induction_on generalizing s with
  | _ n ih =>
    by_cases hs : s.idle = true ∨ s.waiting = true
    · exact ⟨0, Nat.zero_le _, s, rfl, hs⟩
    · obtain ⟨t, ht⟩ := step_next s
      have hlt : t.cq.length < n := hn ▸ step_cq_length_lt hs ht
      obtain ⟨k, hk, u, hrun, hu⟩ := ih _ hlt t rfl
      exact ⟨k + 1, by omega, u, (run_succ k ht).trans hrun, hu⟩

/-- Settles O21: of the cases of a step only an executed command can send, and of its effects only those of `RDR` and
`RDS` do; `RDR` is executed outside the fault state only, and leaves `STATUS` alone. -/
theorem stepEmitsAtMostOneResponse : Obligations.StepEmitsAtMostOneResponse := by
  intro s t h
  obtain ⟨-, rfl⟩ | ⟨_, w, rest, -, -, ⟨-, rfl⟩ | ⟨-, rfl⟩⟩ | ⟨i, rest, hd, ⟨-, -, rfl⟩ | ⟨hf, he⟩⟩ := step_cases h
  · exact .inl rfl
  · exact .inl rfl
  · exact .inl rfl
  · exact .inl rfl
  · refine (exec_effect he).rq_eq_or_response.imp id ?_
    rintro ⟨r, hrq, hr, hst, ⟨⟨ra, rfl⟩, hop⟩ | ⟨rfl, hop⟩⟩
    · have hflt : t.status.flt = false := by
        rw [hst]
        exact hf.resolve_right Bool.false_ne_true
      exact ⟨r, _, rest, hrq, hr, hd, .inl ⟨⟨ra, rfl⟩, hop, hflt⟩⟩
    · exact ⟨r, _, rest, hrq, hr, hd, .inr ⟨rfl, hop⟩⟩

/-- Settles O20: a step sends nothing or one whole response, and one whole response behind what could be cut is cut off
last. -/
theorem stepKeepsResponseFraming : Obligations.StepKeepsResponseFraming := by
  intro s t rs hcut h
  obtain hrq | ⟨r, i, rest, hrq, hr, -, -⟩ := stepEmitsAtMostOneResponse s t h
  · exact ⟨[], by simp, by rw [hrq, hcut, List.append_nil]⟩
  · obtain ⟨hd, behind, rfl⟩ := List.exists_cons_of_ne_nil (isResponse_ne_nil hr)
    refine ⟨[hd :: behind], le_rfl, ?_⟩
    rw [hrq, List.length_append, List.length_cons, ← Nat.add_assoc]
    exact cutResponses_append_response hr hcut (Nat.le_add_right _ _)

/-- Settles O52, by one step for each command: the payload's value has no more limbs than the payload has words, so
`RDR` can send it, and it sends the canonical limbs. -/
theorem ldiThenRdrReturnsTheNumber : Obligations.LdiThenRdrReturnsTheNumber := by
  intro r payload rest s hflt hlen hcq hfit
  have hnl : nlimbs (limbsValue payload) ≤ Config.maxXferLimbs := (nlimbs_limbsValue_le payload).trans hlen
  have hldi : decode s.cq = .command (.ldi r payload) (encode (.rdr r) ++ rest) := by
    rw [hcq, encodeAll_cons, encodeAll_cons]
    exact decode_encode_append (by simpa [Instr.WellFormed] using hlen) _
  have hrdr : decode (encode (.rdr r) ++ rest) = .command (.rdr r) rest := decode_encode_append rfl rest
  have hreg : (((s.setCq (encode (.rdr r) ++ rest)).setReg r (limbsValue payload)).setCq rest).reg r =
      limbsValue payload := by simp
  refine ⟨_, limbs (limbsValue payload), (run_command 1 hldi hflt (exec_ldi_of_fits r hfit)).trans
    (run_command 0 hrdr hflt (exec_rdr_of_le (by rw [hreg]; exact hnl))), rfl, ?_, limbsValue_limbs _, length_limbs _,
    fun _ => limbs_getLast?_ne_zero⟩
  rw [emit_rq, hreg, rdrHeader_eq_ofNat hnl, length_limbs]
  rfl

/-- Settles O50: each action is the update of one stream, or reset, or no change. -/
theorem hostActionsAreTheFour : Obligations.HostActionsAreTheFour := by
  intro s
  refine ⟨fun w => ?_, fun hrq => by simp [hostAct, hrq], fun w ws hrq => ?_, rfl, rfl⟩
  · exact ⟨s.append [w], rfl, rfl, rfl, fun _ => rfl, rfl, fun _ => rfl, rfl, rfl, rfl, rfl⟩
  · exact ⟨{ s with rq := ws }, by simp [hostAct, hrq], rfl, rfl, fun _ => rfl, rfl, fun _ => rfl, rfl, rfl, rfl, rfl⟩

end Sys2Proof.Machine
end

section
/-! SUPPORT. The decoder as the inverse of the encoder: the word a decoded head stands for, and which words are refused
for their opcode, and the rows of the opcode table (rules R61 to R66). -/
namespace Sys2Proof

/-! ### The word of a decoded head -/

/-- The one word that decodes to a head: a plain command's word, or the word in front of the payload of an `LDI`. -/
def headWord : Head → Word
  | .plain i    => encodeHead i
  | .ldi rd len => iFormat 0x02#8 (regBits rd) 0 len

/-- A must-be-zero condition refuses for no reason but its own. -/
theorem needZero_eq_iff {ok : Bool} {rest x : Except DecodeError Head} (hx : x ≠ .error .reservedNotZero) :
    needZero ok rest = x ↔ ok = true ∧ rest = x := by
  cases ok <;> simp [needZero, hx.symm]

/-- A register field refuses for no reason but its own. -/
theorem withReg_eq_iff {field : BitVec 4} {k : Reg → Except DecodeError Head} {x : Except DecodeError Head}
    (hx : x ≠ .error .noSuchRegister) : withReg field k = x ↔ ∃ r, field = regBits r ∧ k r = x := by
  constructor
  · intro h
    unfold withReg at h
    split at h
    · exact ⟨_, BitVec.eq_of_toNat_eq (by rw [regBits_toNat]), h⟩
    · exact absurd h.symm hx
  · rintro ⟨r, rfl, hk⟩
    rwa [withReg_regBits]

theorem needZero_eq_ok_iff {ok : Bool} {rest : Except DecodeError Head} {h : Head} :
    needZero ok rest = .ok h ↔ ok = true ∧ rest = .ok h := needZero_eq_iff (by simp)

theorem withReg_eq_ok_iff {field : BitVec 4} {k : Reg → Except DecodeError Head} {h : Head} :
    withReg field k = .ok h ↔ ∃ r, field = regBits r ∧ k r = .ok h := withReg_eq_iff (by simp)

theorem rFormat_eq_of_fields {w : Word} {op : BitVec 8} {rd ra rb rm : BitVec 4} (hop : opField w = op)
    (hrd : rdField w = rd) (hra : raField w = ra) (hrb : rbField w = rb) (hrm : rmField w = rm) (hz : zField w = 0) :
    rFormat op rd ra rb rm = w := by
  subst hop hrd hra hrb hrm
  exact (eq_rFormat w hz).symm

theorem iFormat_eq_of_fields {w : Word} {op : BitVec 8} {r f : BitVec 4} (hop : opField w = op) (hr : rdField w = r)
    (hf : raField w = f) : iFormat op r f (immField w) = w := by
  subst hop hr hf
  exact (eq_iFormat w).symm

theorem headWord_of_decodeBare {w : Word} {op : BitVec 8} {i : Instr} {h : Head} (hop : opField w = op)
    (hi : encodeHead i = rFormat op 0 0 0 0) (hw : decodeBare w i = .ok h) : headWord h = w := by
  obtain ⟨hz, hok⟩ := needZero_ok hw
  simp only [Bool.and_eq_true, beq_iff_eq] at hz
  obtain ⟨⟨⟨⟨hrd, hra⟩, hrb⟩, hrm⟩, hz⟩ := hz
  cases hok
  exact hi.trans (rFormat_eq_of_fields hop hrd hra hrb hrm hz)

theorem headWord_of_decodeRegImm {w : Word} {op : BitVec 8} {k : Reg → BitVec 16 → Head} {h : Head}
    (hop : opField w = op) (hk : ∀ r imm, headWord (k r imm) = iFormat op (regBits r) 0 imm)
    (hw : decodeRegImm w k = .ok h) : headWord h = w := by
  obtain ⟨hf, hreg⟩ := needZero_ok hw
  obtain ⟨r, hr, hok⟩ := withReg_ok hreg
  cases hok
  exact (hk r _).trans (iFormat_eq_of_fields hop hr (beq_iff_eq.1 hf))

/-- A word that decodes is the word of what it decodes to: the must-be-zero and register fields of its opcode leave no
other. -/
theorem headWord_of_decodeHead {w : Word} {h : Head} (hw : decodeHead w = .ok h) : headWord h = w := by
  simp only [decodeHead, ite_eq_iff, needZero_eq_ok_iff, withReg_eq_ok_iff, Bool.and_eq_true, beq_iff_eq,
    Except.ok.injEq] at hw
  obtain ⟨hop, hw⟩ | ⟨-, hw⟩ := hw
  · exact headWord_of_decodeBare hop rfl hw
  obtain ⟨hop, hw⟩ | ⟨-, hw⟩ := hw
  · exact headWord_of_decodeRegImm hop (fun _ _ => rfl) hw
  obtain ⟨hop, hw⟩ | ⟨-, hw⟩ := hw
  · exact headWord_of_decodeRegImm hop (fun _ _ => rfl) hw
  obtain ⟨hop, ⟨⟨hrb, hrm⟩, hz⟩, rd, hrd, ra, hra, rfl⟩ | ⟨-, hw⟩ := hw
  · exact rFormat_eq_of_fields hop hrd hra hrb hrm hz
  obtain ⟨hop, ⟨⟨⟨hrd, hrb⟩, hrm⟩, hz⟩, ra, hra, rfl⟩ | ⟨-, hw⟩ := hw
  · exact rFormat_eq_of_fields hop hrd hra hrb hrm hz
  obtain ⟨hop, hw⟩ | ⟨-, hw⟩ := hw
  · exact headWord_of_decodeRegImm hop (fun _ _ => rfl) hw
  obtain ⟨hop, hw⟩ | ⟨-, hw⟩ := hw
  · exact headWord_of_decodeRegImm hop (fun _ _ => rfl) hw
  obtain ⟨hop, ⟨⟨⟨hra, hrb⟩, hrm⟩, hz⟩, rd, hrd, rfl⟩ | ⟨-, hw⟩ := hw
  · exact rFormat_eq_of_fields hop hrd hra hrb hrm hz
  obtain ⟨hop, ⟨hrm, hz⟩, rd, hrd, ra, hra, rb, hrb, rfl⟩ | ⟨-, hw⟩ := hw
  · exact rFormat_eq_of_fields hop hrd hra hrb hrm hz
  obtain ⟨hop, ⟨hrb, hz⟩, rd, hrd, rw, hra, rm, hrm, rfl⟩ | ⟨-, hw⟩ := hw
  · exact rFormat_eq_of_fields hop hrd hra hrb hrm hz
  obtain ⟨hop, hz, rd, hrd, ra, hra, rb, hrb, rm, hrm, rfl⟩ | ⟨-, hw⟩ := hw
  · exact rFormat_eq_of_fields hop hrd hra hrb hrm hz
  obtain ⟨hop, hw⟩ | ⟨-, hw⟩ := hw
  · exact headWord_of_decodeBare hop rfl hw
  obtain ⟨hop, ⟨hrd, hf⟩, rfl⟩ | ⟨-, hw⟩ := hw
  · exact iFormat_eq_of_fields hop hrd (raField_eq_bitFlag w hf)
  obtain ⟨hop, hw⟩ | ⟨-, hw⟩ := hw
  · exact headWord_of_decodeBare hop rfl hw
  obtain ⟨hop, hw⟩ | ⟨-, hw⟩ := hw
  · exact headWord_of_decodeBare hop rfl hw
  obtain ⟨hop, hw⟩ | ⟨-, hw⟩ := hw
  · exact headWord_of_decodeBare hop rfl hw
  cases hw

theorem decodeHead_ne_plain_ldi (w : Word) (rd : Reg) (payload : List Word) :
    decodeHead w ≠ .ok (.plain (.ldi rd payload)) := by
  intro hw
  have hldi := decodeHead_encodeHead_ldi rd payload
  rw [show encodeHead (.ldi rd payload) = w from headWord_of_decodeHead hw, hw] at hldi
  cases hldi

/-- Every command without a payload is well-formed, and is its word alone. -/
theorem wellFormed_and_encode_of_ne_ldi {i : Instr} (hi : ∀ rd payload, i ≠ .ldi rd payload) :
    i.WellFormed = true ∧ encode i = [encodeHead i] := by
  cases i with
  | ldi rd payload => exact absurd rfl (hi rd payload)
  | _ => exact ⟨rfl, rfl⟩

/-- An `LDI` with as many payload words as a 16-bit length says is well-formed, and that length is in its word. -/
theorem wellFormed_and_encode_ldi {payload : List Word} {len : BitVec 16} (rd : Reg) (h : payload.length = len.toNat) :
    (Instr.ldi rd payload).WellFormed = true ∧ encode (.ldi rd payload) = headWord (.ldi rd len) :: payload := by
  refine ⟨?_, ?_⟩
  · simp only [Instr.WellFormed, Config.maxXferLimbs, decide_eq_true_eq]
    omega
  · simp [encode, encodeHead, payloadOf, headWord, h]

theorem wellFormed_and_encode_of_decode {ws rest : List Word} {i : Instr} (h : decode ws = .command i rest) :
    i.WellFormed = true ∧ encode i ++ rest = ws := by
  obtain ⟨w, tail, rfl, ⟨hw, rfl⟩ | ⟨rd, len, hw, hlen, rfl, rfl⟩⟩ := decode_command_cases h
  · obtain ⟨hwf, henc⟩ := wellFormed_and_encode_of_ne_ldi (i := i) fun rd payload hi =>
      decodeHead_ne_plain_ldi w rd payload (hi ▸ hw)
    exact ⟨hwf, by rw [henc, ← headWord_of_decodeHead hw]; rfl⟩
  · obtain ⟨hwf, henc⟩ := wellFormed_and_encode_ldi rd (List.length_take_of_le hlen)
    exact ⟨hwf, by rw [henc, headWord_of_decodeHead hw, List.cons_append, List.take_append_drop]⟩

/-! ### Words refused for their opcode (rule R66) -/

theorem decodeBare_ne_unassigned (w : Word) (i : Instr) : decodeBare w i ≠ .error .unassignedOpcode := by
  simp [decodeBare, needZero_eq_iff]

theorem decodeRegImm_ne_unassigned (w : Word) (k : Reg → BitVec 16 → Head) :
    decodeRegImm w k ≠ .error .unassignedOpcode := by
  simp [decodeRegImm, needZero_eq_iff, withReg_eq_iff]

/-- The sixteen opcodes of rule R64. -/
def opcodes : List Nat :=
  [0x00, 0x01, 0x02, 0x03, 0x04, 0x05, 0x06, 0x07, 0x10, 0x11, 0x12, 0x18, 0x19, 0x20, 0x21, 0x3F]

/-- Each opcode has a branch of its own in the decoder, and no branch but the last refuses a word for its opcode. -/
theorem decodeHead_unassigned_iff (w : Word) :
    decodeHead w = .error .unassignedOpcode ↔ (opField w).toNat ∉ opcodes := by
  simp [decodeHead, ite_eq_iff, decodeBare_ne_unassigned, decodeRegImm_ne_unassigned, needZero_eq_iff,
    withReg_eq_iff, opcodes, BitVec.toNat_eq]

/-! ### The rows of the opcode table (rule R64) -/

theorem immField_toNat (w : Word) :
    (immField w).toNat = (rbField w).toNat * 2 ^ 12 + (rmField w).toNat * 2 ^ 8 + (zField w).toNat := by
  simp only [immField, rbField, rmField, zField, field_toNat]
  omega

/-- Two words are the same when their R-format fields are. -/
theorem word_eq_iff_fields (v w : Word) :
    v = w ↔ opField v = opField w ∧ rdField v = rdField w ∧ raField v = raField w ∧ rbField v = rbField w ∧
      rmField v = rmField w ∧ zField v = zField w := by
  constructor
  · rintro rfl
    exact ⟨rfl, rfl, rfl, rfl, rfl, rfl⟩
  · rintro ⟨hop, hrd, hra, hrb, hrm, hz⟩
    have himm : immField v = immField w :=
      BitVec.eq_of_toNat_eq (by rw [immField_toNat, immField_toNat, hrb, hrm, hz])
    rw [eq_iFormat v, eq_iFormat w, hop, hrd, hra, himm]

/-- A word matches a row when each of its fields does. -/
theorem hits_iff_fields (row : OpRow) (w : Word) :
    row.hits w = true ↔
      opField w &&& row.mask.extractLsb' 24 8 = row.pattern.extractLsb' 24 8 ∧
      rdField w &&& row.mask.extractLsb' 20 4 = row.pattern.extractLsb' 20 4 ∧
      raField w &&& row.mask.extractLsb' 16 4 = row.pattern.extractLsb' 16 4 ∧
      rbField w &&& row.mask.extractLsb' 12 4 = row.pattern.extractLsb' 12 4 ∧
      rmField w &&& row.mask.extractLsb' 8 4 = row.pattern.extractLsb' 8 4 ∧
      zField w &&& row.mask.extractLsb' 0 8 = row.pattern.extractLsb' 0 8 := by
  simp only [OpRow.hits, beq_iff_eq, word_eq_iff_fields, opField, rdField, raField, rbField, rmField, zField,
    BitVec.extractLsb'_and]

@[simp] theorem and_ones_four (x : BitVec 4) : x &&& 15#4 = x := BitVec.and_allOnes
@[simp] theorem and_ones_eight (x : BitVec 8) : x &&& 255#8 = x := BitVec.and_allOnes

/-- The mask bit of a register field leaves the eight names (rule R63). -/
@[simp] theorem regBits_and_eight (r : Reg) : regBits r &&& 8#4 = 0#4 := by
  revert r; decide

theorem toNat_lt_eight {field : BitVec 4} (hf : field &&& 8#4 = 0#4) : field.toNat < 8 := by
  revert field; decide

theorem withReg_of_and_eight {field : BitVec 4} (hf : field &&& 8#4 = 0#4) (k : Reg → Except DecodeError Head) :
    withReg field k = k ⟨field.toNat, toNat_lt_eight hf⟩ := dif_pos _

@[simp] theorem bitFlag_and_fourteen (bit : Bool) : bitFlag bit &&& 14#4 = 0#4 := by
  revert bit; decide

/-- The mask bits `f[3:1]` of `MACB` (rule R62). -/
theorem fHighField_eq_zero_iff (w : Word) : fHighField w = 0#3 ↔ raField w &&& 14#4 = 0#4 := by
  have h : fHighField w = (raField w).extractLsb' 1 3 := by
    apply BitVec.eq_of_toNat_eq
    rw [BitVec.extractLsb'_toNat, fHighField, raField, field_toNat, field_toNat, Nat.shiftRight_eq_div_pow]
    omega
  rw [h]
  generalize raField w = f
  revert f; decide

/-- The word of a head matches the row of the head's mnemonic. -/
theorem hits_headWord (h : Head) :
    ∀ row ∈ opcodeTable, row.mnemonic = headMnemonic h → row.hits (headWord h) = true := by
  cases h with
  | plain i => cases i <;> simp [opcodeTable, headMnemonic, mnemonicOf, hits_iff_fields, headWord, encodeHead]
  | ldi rd len => simp [opcodeTable, headMnemonic, hits_iff_fields, headWord]

/-- The columns of each row ask of the fields what the branch of its opcode asks of them. -/
theorem decodes_of_hits {row : OpRow} (hrow : row ∈ opcodeTable) {w : Word} (hw : row.hits w = true) :
    ∃ h, decodeHead w = .ok h ∧ row.mnemonic = headMnemonic h := by
  rw [hits_iff_fields] at hw
  revert hw
  fin_cases hrow
  all_goals
    simp +contextual [decodeHead, decodeBare, decodeRegImm, needZero, withReg_of_and_eight, fHighField_eq_zero_iff,
      headMnemonic, mnemonicOf]

theorem hits_iff_decodes {row : OpRow} (hrow : row ∈ opcodeTable) (w : Word) :
    row.hits w = true ↔ ∃ h, decodeHead w = .ok h ∧ row.mnemonic = headMnemonic h := by
  refine ⟨decodes_of_hits hrow, ?_⟩
  rintro ⟨h, hw, hm⟩
  rw [← headWord_of_decodeHead hw]
  exact hits_headWord h row hrow hm

theorem mnemonic_injective : ∀ p ∈ opcodeTable, ∀ q ∈ opcodeTable, p.mnemonic = q.mnemonic → p = q := by
  decide

end Sys2Proof
end

section
/-! SUPPORT. Waiting for payload, the step by the fault-state filter, and the pseudo-instructions `LDV` and `SSUM` as
the commands they stand for (rules R68, R69, R74). -/
namespace Sys2Proof

/-! ### The payload of an `LDI` (rule R68) -/

theorem decode_ldi_waiting {w : Word} {rd : Reg} {len : BitVec 16} {ws : List Word}
    (h : decodeHead w = .ok (.ldi rd len)) (hlen : ws.length < len.toNat) : decode (w :: ws) = .waiting rd len := by
  simp [decode, h, hlen]

theorem decode_ldi_append {w : Word} {rd : Reg} {len : BitVec 16} {payload : List Word}
    (h : decodeHead w = .ok (.ldi rd len)) (hlen : payload.length = len.toNat) (rest : List Word) :
    decode (w :: (payload ++ rest)) = .command (.ldi rd payload) rest := by
  rw [decode_ldi h (by simp [hlen]), List.take_left' hlen, List.drop_left' hlen]

/-- A list of commands is its first command's words in front of the others'. -/
theorem decode_encodeAll_cons {i : Instr} (hi : i.WellFormed = true) (is : List Instr) (rest : List Word) :
    decode (encodeAll (i :: is) ++ rest) = .command i (encodeAll is ++ rest) := by
  rw [encodeAll_cons]
  exact decode_encode_append hi _

theorem encodeAll_append (is js : List Instr) : encodeAll (is ++ js) = encodeAll is ++ encodeAll js :=
  List.flatMap_append

namespace Machine

theorem wordOf_of_decodeHead {w : Word} {i : Instr} (h : decodeHead w = .ok (.plain i)) : WordOf w i :=
  decode_plain h

/-! ### Steps (rule R69) -/

theorem step_of_idle {s : State} (h : s.cq = []) : step s = .next s := by
  simp [step, h, decode]

theorem step_of_waiting {s : State} {rd : Reg} {len : BitVec 16} (h : decode s.cq = .waiting rd len) :
    step s = .next s := by
  simp [step, h]

theorem run_of_step_self {s : State} (h : step s = .next s) (k : Nat) :
    Host.Core.run Sys2Proof.core k s = .next s := by
  induction k with
  | zero => rfl
  | succ k ih => rw [run_succ k h, ih]

theorem executesInFault_iff (i : Instr) : executesInFault i = true ↔ i = .rds ∨ i = .clrf ∨ i = .rst := by
  cases i <;> simp [executesInFault]

theorem discards_iff (i : Instr) (s : State) :
    discards i s = true ↔ s.status.flt = true ∧ i ≠ .rds ∧ i ≠ .clrf ∧ i ≠ .rst := by
  simp [discards, ← Bool.not_eq_true, executesInFault_iff]

theorem step_of_discarded {s : State} {i : Instr} {rest : List Word} (hd : decode s.cq = .command i rest)
    (h : discards i s = true) : step s = .next (s.setCq rest) := by
  rw [step_of_command hd, if_pos h]

theorem step_of_executed {s : State} {i : Instr} {rest : List Word} (hd : decode s.cq = .command i rest)
    (h : ¬discards i s = true) : step s = exec i (s.setCq rest) := by
  rw [step_of_command hd, if_neg h]

/-! ### Writes that fit (rules R91, R97, R124, R125) -/

theorem exec_lds_of_fits {s : State} {imm : BitVec 16} (rd : Reg) (h : fits s.params imm.toNat = true) :
    exec (.lds rd imm) s = .next (s.setReg rd imm.toNat) :=
  congrArg Host.Outcome.next (storing_of_fits h)

theorem exec_mva_of_fits {s : State} (rd : Reg) (h : fits s.params s.acc = true) :
    exec (.mva rd) s = .next (s.setReg rd s.acc) :=
  congrArg Host.Outcome.next (storing_of_fits h)

theorem exec_aclr (s : State) : exec .aclr s = .next (s.setAcc 0) :=
  congrArg Host.Outcome.next (storing_of_fits (fits_zero s.params))

theorem macbTerm_eq (s : State) (idx : BitVec 16) (bit : Bool) :
    s.macbTerm idx bit = if bit then s.ktRead idx.toNat else 0 := by
  cases bit <;> simp [State.macbTerm, State.keyOperand, bitVal, zext16]

theorem exec_macb_of_fits {s : State} {idx : BitVec 16} {bit : Bool} (hidx : idx.toNat < s.params.ktSize)
    (h : fits s.params (s.acc + s.macbTerm idx bit) = true) :
    exec (.macb idx bit) s = .next (s.setAcc (s.acc + s.macbTerm idx bit)) :=
  congrArg Host.Outcome.next ((withKey_of_lt hidx).trans (storing_of_fits h))

/-! ### `LDV` (rule R74) -/

theorem ldv_eq_none_iff (rd : Reg) (value : Nat) : ldv rd value = none ↔ Config.maxXferLimbs < nlimbs value := by
  unfold ldv
  split
  · rename_i hlt
    have hle : nlimbs value ≤ 1 := (nlimbs_le_iff value 1).2 (by omega)
    simpa using hle.trans (by decide)
  · simp

/-- `LDV` is an `LDS` of the number, or an `LDI` of its canonical limbs. -/
theorem ldv_cases {rd : Reg} {value : Nat} {i : Instr} (h : ldv rd value = some i) :
    value < 65536 ∧ i = .lds rd (BitVec.ofNat 16 value) ∨
      nlimbs value ≤ Config.maxXferLimbs ∧ i = .ldi rd (limbs value) := by
  unfold ldv at h
  split at h
  · rename_i hlt
    cases h
    exact .inl ⟨hlt, rfl⟩
  · split at h
    · rename_i hle
      cases h
      exact .inr ⟨hle, rfl⟩
    · cases h

theorem wellFormed_of_ldv {rd : Reg} {value : Nat} {i : Instr} (h : ldv rd value = some i) : i.WellFormed = true := by
  obtain ⟨-, rfl⟩ | ⟨hle, rfl⟩ := ldv_cases h
  · rfl
  · simpa [Instr.WellFormed] using hle

theorem exec_of_ldv {rd : Reg} {value : Nat} {i : Instr} {s : State} (h : ldv rd value = some i)
    (hfit : fits s.params value = true) : exec i s = .next (s.setReg rd value) := by
  obtain ⟨hlt, rfl⟩ | ⟨-, rfl⟩ := ldv_cases h
  · have himm : (BitVec.ofNat 16 value).toNat = value := by
      rw [BitVec.toNat_ofNat, Nat.mod_eq_of_lt hlt]
    rw [exec_lds_of_fits rd (by rwa [himm]), himm]
  · rw [exec_ldi_of_fits rd (by rwa [limbsValue_limbs]), limbsValue_limbs]

/-! ### `SSUM` (rules R74, R126, R127) -/

/-- The `MACB` commands of a block, by index. -/
theorem macbBlock_eq_map (bits : List Bool) (start : Nat) :
    macbBlock start bits =
      (List.range bits.length).map fun j => .macb (BitVec.ofNat 16 (start + j)) (bits.getD j false) := by
  induction bits generalizing start with
  | nil => rfl
  | cons bit bits ih =>
    simp [macbBlock, ih, List.range_succ_eq_map, Nat.add_assoc, Nat.add_comm 1]

/-- The terms of a block: bit `j`, counted from the left, selects entry `j`. -/
def blockTerms (bits : List Bool) : List (BitVec 16 × Bool) :=
  (List.range bits.length).map fun j => (BitVec.ofNat 16 j, bits.getD j false)

theorem length_blockTerms (bits : List Bool) : (blockTerms bits).length = bits.length := by
  simp [blockTerms]

/-- The sum a list of `MACB` commands adds to the accumulator. -/
def macbSum (s : State) (terms : List (BitVec 16 × Bool)) : Nat := (terms.map fun x => s.macbTerm x.1 x.2).sum

/-- The commands `MACB` for given indices and bits. -/
def macbs (terms : List (BitVec 16 × Bool)) : List Instr := terms.map fun x => .macb x.1 x.2

/-- Outside the fault state, the words of `MACB` commands at the head of `CQ` add their terms to the accumulator, one
command a step: no partial sum is above the whole sum, so every one fits. -/
theorem run_macbs {s : State} {terms : List (BitVec 16 × Bool)} {rest : List Word} (k : Nat)
    (hflt : s.status.flt = false) (hidx : ∀ x ∈ terms, x.1.toNat < s.params.ktSize)
    (hcq : s.cq = encodeAll (macbs terms) ++ rest) (hfit : fits s.params (s.acc + macbSum s terms) = true) :
    Host.Core.run Sys2Proof.core (terms.length + k) s =
      Host.Core.run Sys2Proof.core k ((s.setCq rest).setAcc (s.acc + macbSum s terms)) := by
  induction terms generalizing s with
  | nil =>
    obtain rfl : s.cq = rest := hcq
    rw [List.length_nil, Nat.zero_add]
    rfl
  | cons x terms ih =>
    obtain ⟨hx, hidx⟩ := List.forall_mem_cons.1 hidx
    have hsum : s.acc + macbSum s (x :: terms) = s.acc + s.macbTerm x.1 x.2 + macbSum s terms := by
      rw [macbSum, List.map_cons, List.sum_cons, Nat.add_assoc, macbSum]
    rw [hsum] at hfit ⊢
    have hd : decode s.cq = .command (.macb x.1 x.2) (encodeAll (macbs terms) ++ rest) := by
      rw [hcq]
      exact decode_encodeAll_cons rfl _ _
    have hexec := exec_macb_of_fits (s := s.setCq (encodeAll (macbs terms) ++ rest)) hx
      (fits_mono hfit (Nat.le_add_right _ _))
    rw [List.length_cons, Nat.succ_add, run_command _ hd hflt hexec]
    exact ih hflt hidx rfl hfit

theorem ssumCommands_eq (rd : Reg) (bits : List Bool) :
    ssumCommands rd bits = .aclr :: (macbs (blockTerms bits) ++ [.mva rd]) := by
  simp [ssumCommands, macbBlock_eq_map, macbs, blockTerms]

theorem toNat_blockTerms_lt {bits : List Bool} {x : BitVec 16 × Bool} (hx : x ∈ blockTerms bits) :
    x.1.toNat < bits.length := by
  obtain ⟨j, hj, rfl⟩ := List.mem_map.1 hx
  exact (Nat.mod_le j _).trans_lt (List.mem_range.1 hj)

/-- In a block of at most 65536 bits the index of every term is its position. -/
theorem macbSum_blockTerms (s : State) {bits : List Bool} (hlen : bits.length ≤ 65536) :
    macbSum s (blockTerms bits) =
      ((List.range bits.length).map fun j => if bits.getD j false then s.ktRead j else 0).sum := by
  rw [macbSum, blockTerms, List.map_map]
  refine congrArg List.sum (List.map_congr_left fun j hj => ?_)
  have hj : j % 2 ^ 16 = j := Nat.mod_eq_of_lt ((List.mem_range.1 hj).trans_le hlen)
  simp only [Function.comp_apply, macbTerm_eq, BitVec.toNat_ofNat, hj]

theorem ktSize_le_of_legal {p : Params} (h : Config.legal p = true) : p.ktSize ≤ 65536 := by
  simp only [Config.legal, Bool.and_eq_true, decide_eq_true_eq] at h
  exact h.1.2

/-- Outside the fault state, the words of `SSUM` at the head of `CQ` write the sum of the selected terms to `ACC` and to
the register, one command a step. -/
theorem run_ssumCommands {s : State} {rd : Reg} {bits : List Bool} {rest : List Word} (hflt : s.status.flt = false)
    (hlen : bits.length ≤ s.params.ktSize) (hcq : s.cq = encodeAll (ssumCommands rd bits) ++ rest)
    (hfit : fits s.params (macbSum s (blockTerms bits)) = true) :
    Host.Core.run Sys2Proof.core (bits.length + 2) s =
      .next (((s.setCq rest).setAcc (macbSum s (blockTerms bits))).setReg rd (macbSum s (blockTerms bits))) := by
  have haclr : decode s.cq =
      .command .aclr (encodeAll (macbs (blockTerms bits)) ++ (encodeAll [.mva rd] ++ rest)) := by
    rw [hcq, ssumCommands_eq, decode_encodeAll_cons rfl, encodeAll_append, List.append_assoc]
  have hmva : decode (encodeAll [.mva rd] ++ rest) = .command (.mva rd) rest := decode_encodeAll_cons rfl [] rest
  have hmacbs := run_macbs
    (s := (s.setCq (encodeAll (macbs (blockTerms bits)) ++ (encodeAll [.mva rd] ++ rest))).setAcc 0) 1 hflt
    (fun x hx => (toNat_blockTerms_lt hx).trans_le hlen) rfl (by rwa [setAcc_acc, Nat.zero_add])
  rw [length_blockTerms, setAcc_acc, Nat.zero_add] at hmacbs
  exact (run_command (bits.length + 1) haclr hflt (exec_aclr _)).trans
    (hmacbs.trans (run_command 0 hmva hflt (exec_mva_of_fits rd hfit)))

end Machine
end Sys2Proof
end

section
/-! PROOFS of the statements about the encoding: the decoder, the engine step and the pseudo-instructions. -/
namespace Sys2Proof.Machine

/-- Settles O1, by the round trip of one command's words. -/
theorem decodeOfEncodeIsTheCommand : Obligations.DecodeOfEncodeIsTheCommand := fun _ rest hi =>
  decode_encode_append hi rest

/-- Settles O2: a word that decodes is the word of what it decodes to, and the payload is what stands behind it. -/
theorem encodeOfDecodeIsTheStream : Obligations.EncodeOfDecodeIsTheStream := fun _ _ _ h =>
  wellFormed_and_encode_of_decode h

/-- Settles O3: a word matches a row exactly when it decodes under the row's mnemonic. -/
theorem decoderMatchesOpcodeTable : Obligations.DecoderMatchesOpcodeTable := by
  refine fun w => ⟨fun h hw row hrow => ?_, fun e hw row hrow => ?_⟩
  · simp [hits_iff_decodes hrow, hw]
  · simp [← Bool.not_eq_true, hits_iff_decodes hrow, hw]

/-- Settles O5: for every word by the decoder's chain of opcodes; the 240 are then counted by the opcode alone. -/
theorem unassignedOpcodesAreIllegal : Obligations.UnassignedOpcodesAreIllegal := by
  refine ⟨decodeHead_unassigned_iff, ?_⟩
  simp only [decodeHead_unassigned_iff, opField_rFormat, BitVec.toNat_ofNat]
  decide +kernel

/-- Settles O7: the decoder compares the payload's length with what stands there and looks at no payload word; a step
that changes nothing is repeated for ever; the stream of a reset engine is empty. -/
theorem ldiTakesItsPayload : Obligations.LdiTakesItsPayload := by
  refine ⟨fun w rd len hw => ⟨fun _ => decode_ldi_waiting hw, fun _ rest hlen => decode_ldi_append hw hlen rest⟩,
    fun s rd len k h => run_of_step_self (step_of_waiting h) k, fun s t h => ?_,
    fun w e ws _ he => decode_error he ws⟩
  cases h
  rfl

/-- Settles O44: the commands run one a step, and in a block of at most 65536 bits the index of each `MACB` is the bit's
position. -/
theorem subsetSumOfABlock : Obligations.SubsetSumOfABlock := by
  intro s rd bits rest v hinv hflt hlen hcq hv hfit
  have hsum : macbSum s (blockTerms bits) = v :=
    (macbSum_blockTerms s (hlen.trans (ktSize_le_of_legal hinv.legal))).trans hv.symm
  have hrun := run_ssumCommands hflt hlen hcq (by rwa [hsum])
  rw [hsum] at hrun
  have hw := setReg_writesReg ((s.setCq rest).setAcc v) rd v
  exact ⟨_, hrun, rfl, hw.value, hw.regs, fun _ => rfl, ⟨rfl, rfl, rfl, rfl⟩, rfl, rfl, rfl⟩

/-- Settles O53: the expansion is an `LDS` of the number or an `LDI` of its canonical limbs, which read back as it. -/
theorem ldvLoadsTheValue : Obligations.LdvLoadsTheValue := fun rd value =>
  ⟨ldv_eq_none_iff rd value, fun _ s h hfit =>
    ⟨wellFormed_of_ldv h, _, exec_of_ldv h hfit, setReg_writesReg s rd value⟩⟩

/-- Settles O4: a word that matches two rows decodes under both mnemonics, and no two rows share one. -/
theorem opcodeRowsDoNotOverlap : Obligations.OpcodeRowsDoNotOverlap := by
  intro w p hp q hq hpw hqw
  obtain ⟨h, hw, hmp⟩ := decodes_of_hits hp hpw
  obtain ⟨h', hw', hmq⟩ := decodes_of_hits hq hqw
  obtain rfl : h = h' := Except.ok.inj (hw.symm.trans hw')
  exact mnemonic_injective p hp q hq (hmp.trans hmq.symm)

/-- Settles O6: each word is decoded by itself, `LDI` with the two words behind it. -/
theorem workedEncodingsDecode : Obligations.WorkedEncodingsDecode := by
  have hldi : decodeHead 0x02400002#32 = .ok (.ldi 4 2#16) := by decide
  refine ⟨⟨?_, ?_, decode_ldi_append (payload := [0x89ABCDEF#32, 0x01234567#32]) hldi rfl, ?_, ?_, ?_, ?_, ?_, ?_⟩,
    ⟨?_, ?_, ?_, ?_, ?_, ?_, ?_, ?_, ?_⟩, by decide⟩ <;>
    exact wordOf_of_decodeHead (by decide)

/-- Settles O8, by what stands at the head of `CQ` and the fault-state filter. -/
theorem stepFollowsTheEngineStep : Obligations.StepFollowsTheEngineStep := by
  intro s
  refine ⟨step_of_idle, fun rd len => step_of_waiting, fun i rest hd hflt hrds hclrf hrst => ?_, fun e w rest hd => ?_,
    fun i rest hd h => ?_⟩
  · exact step_of_discarded hd ((discards_iff i s).2 ⟨hflt, hrds, hclrf, hrst⟩)
  · exact step_of_illegal hd
  · refine step_of_executed hd fun hdis => ?_
    obtain ⟨hflt, hrds, hclrf, hrst⟩ := (discards_iff i s).1 hdis
    simp [hflt, hrds, hclrf, hrst] at h

/-- Settles O9: an `Illegal` word is taken alone, and taking it outside the fault state is fault entry. -/
theorem illegalWordRaisesIllegalCmd : Obligations.IllegalWordRaisesIllegalCmd := by
  intro s w rest e hflt hcq he
  refine ⟨(s.setCq rest).raise .illegalCmd w, ?_, raise_entersFault _ .illegalCmd w⟩
  rw [step_of_illegal (hcq ▸ decode_error he rest)]
  simp [takeIllegal, hflt]

end Sys2Proof.Machine
end

section
/-! SUPPORT. The data movement commands: their words as numbers, and what each does on each side of its fault check
(rules R91 to R96). -/
namespace Sys2Proof.Machine

/-! ### The words (rules R61, R62, R64) -/

theorem iFormat_regBits (op : BitVec 8) (r : Reg) (imm : BitVec 16) :
    iFormat op (regBits r) 0 imm = iWord op.toNat r.val 0 imm.toNat := by
  rw [iFormat_eq_iWord, regBits_toNat]
  rfl

theorem encodeHead_lds (rd : Reg) (imm : BitVec 16) : encodeHead (.lds rd imm) = iWord 0x01 rd.val 0 imm.toNat :=
  iFormat_regBits 0x01#8 rd imm

theorem encodeHead_ldi (rd : Reg) {payload : List Word} (h : payload.length ≤ Config.maxXferLimbs) :
    encodeHead (.ldi rd payload) = iWord 0x02 rd.val 0 payload.length := by
  have hlen : (BitVec.ofNat 16 payload.length).toNat = payload.length := Nat.mod_eq_of_lt (Nat.lt_succ_of_le h)
  have hw := iFormat_regBits 0x02#8 rd (BitVec.ofNat 16 payload.length)
  rwa [hlen] at hw

theorem encodeHead_kst (ra : Reg) (idx : BitVec 16) : encodeHead (.kst ra idx) = iWord 0x05 ra.val 0 idx.toNat :=
  iFormat_regBits 0x05#8 ra idx

theorem encodeHead_kld (rd : Reg) (idx : BitVec 16) : encodeHead (.kld rd idx) = iWord 0x06 rd.val 0 idx.toNat :=
  iFormat_regBits 0x06#8 rd idx

theorem encodeHead_mov (rd ra : Reg) : encodeHead (.mov rd ra) = rWord 0x03 rd.val ra.val 0 0 := by
  rw [encodeHead, rFormat_eq_rWord, regBits_toNat, regBits_toNat]
  rfl

theorem encodeHead_rdr (ra : Reg) : encodeHead (.rdr ra) = rWord 0x04 0 ra.val 0 0 := by
  rw [encodeHead, rFormat_eq_rWord, regBits_toNat]
  rfl

theorem encodeHead_mva (rd : Reg) : encodeHead (.mva rd) = rWord 0x07 rd.val 0 0 0 := by
  rw [encodeHead, rFormat_eq_rWord, regBits_toNat]
  rfl

/-- The encoder's word of a command without a payload is the whole command. -/
theorem wordOf_encodeHead {i : Instr} (h : ∀ rd payload, i ≠ .ldi rd payload) : WordOf (encodeHead i) i :=
  wordOf_of_decodeHead (decodeHead_encodeHead h)

/-! ### The payload as a sum (rule R92) -/

theorem limbsValue_eq_sum (ls : List Word) :
    limbsValue ls = ((List.range ls.length).map fun k => (ls.getD k 0).toNat * 2 ^ (32 * k)).sum := by
  induction ls with
  | nil => rfl
  | cons l ls ih =>
    have hterm (k : Nat) :
        (ls.getD k 0).toNat * 2 ^ (32 * (k + 1)) = 2 ^ 32 * ((ls.getD k 0).toNat * 2 ^ (32 * k)) := by
      rw [Nat.mul_succ, Nat.pow_add]
      ring
    rw [limbsValue, ih, List.length_cons, List.range_succ_eq_map, List.map_cons, List.sum_cons, List.map_map,
      ← List.sum_map_mul_left]
    simp only [Function.comp_def, List.getD_cons_zero, List.getD_cons_succ, Nat.succ_eq_add_one, hterm, Nat.mul_zero,
      Nat.pow_zero, Nat.mul_one]

/-! ### What each command does -/

theorem exec_ldi_of_not_fits {s : State} {payload : List Word} (rd : Reg)
    (h : fits s.params (limbsValue payload) = false) :
    exec (.ldi rd payload) s = .next (s.raise .capacity (encodeHead (.ldi rd payload))) :=
  congrArg Host.Outcome.next (storing_of_not_fits h)

theorem exec_mov_of_fits {s : State} {ra : Reg} (rd : Reg) (h : fits s.params (s.reg ra) = true) :
    exec (.mov rd ra) s = .next (s.setReg rd (s.reg ra)) :=
  congrArg Host.Outcome.next (storing_of_fits h)

theorem exec_kst_of_lt {s : State} {ra : Reg} {idx : BitVec 16} (hidx : idx.toNat < s.params.ktSize)
    (h : fits s.params (s.reg ra) = true) : exec (.kst ra idx) s = .next (s.ktSet idx.toNat (s.reg ra)) :=
  congrArg Host.Outcome.next ((withKey_of_lt hidx).trans (storing_of_fits h))

theorem exec_kst_of_ge {s : State} {idx : BitVec 16} (ra : Reg) (hidx : s.params.ktSize ≤ idx.toNat) :
    exec (.kst ra idx) s = .next (s.raise .keyRange (encodeHead (.kst ra idx))) :=
  congrArg Host.Outcome.next (withKey_of_ge hidx)

theorem exec_kld_of_lt {s : State} {idx : BitVec 16} (rd : Reg) (hidx : idx.toNat < s.params.ktSize)
    (h : fits s.params (s.ktRead idx.toNat) = true) :
    exec (.kld rd idx) s = .next (s.setReg rd (s.ktRead idx.toNat)) :=
  congrArg Host.Outcome.next ((withKey_of_lt hidx).trans (storing_of_fits h))

theorem exec_kld_of_ge {s : State} {idx : BitVec 16} (rd : Reg) (hidx : s.params.ktSize ≤ idx.toNat) :
    exec (.kld rd idx) s = .next (s.raise .keyRange (encodeHead (.kld rd idx))) :=
  congrArg Host.Outcome.next (withKey_of_ge hidx)

end Sys2Proof.Machine
end

section
/-! PROOFS of the statements about the data movement commands (40_data_movement.md). -/
namespace Sys2Proof.Machine

/-- Settles O26: the payload's value is the sum, and `LDI` is one capacity-checked write of it. -/
theorem ldiLoadsThePayloadValue : Obligations.LdiLoadsThePayloadValue := by
  intro rd payload hlen
  have hw := encodeHead_ldi rd hlen
  refine ⟨fun rest => ?_, fun s v hv => ?_⟩
  · rw [← hw]
    exact decode_encode_append (i := .ldi rd payload) (by simpa [Instr.WellFormed] using hlen) rest
  · obtain rfl : v = limbsValue payload := hv.trans (limbsValue_eq_sum payload).symm
    rw [← hw]
    exact ⟨fun hfit => ⟨_, exec_ldi_of_fits rd hfit, setReg_writesReg s rd _⟩,
      fun hfit => ⟨_, exec_ldi_of_not_fits rd hfit, raise_entersFault s .capacity _⟩⟩

/-- Settles O28: up to 65535 limbs the header's 16-bit length field holds their number; above, nothing is sent. -/
theorem rdrSendsTheRegister : Obligations.RdrSendsTheRegister := by
  intro ra
  rw [← encodeHead_rdr]
  refine ⟨wordOf_encodeHead (by simp), fun s => ⟨fun hle => ?_, fun hlt => ?_⟩⟩
  · rw [← rdrHeader_eq_ofNat hle]
    exact ⟨_, exec_rdr_of_le hle, emit_emits s _⟩
  · exact ⟨_, exec_rdr_of_lt hlt, raise_entersFault s .capacity _⟩

/-- Settles O29: by the invariant the register fits and the table is canonical, where a read after a write is that of
rule R42. -/
theorem kstStoresTheRegister : Obligations.KstStoresTheRegister := by
  intro ra idx
  rw [← encodeHead_kst]
  exact ⟨wordOf_encodeHead (by simp), fun s hinv =>
    ⟨fun hlt => ⟨_, exec_kst_of_lt hlt (hinv.regsFit ra), ktSet_writesKey hinv.table _ _⟩,
      fun hge => ⟨_, exec_kst_of_ge ra hge, raise_entersFault s .keyRange _⟩⟩⟩

/-- Settles O30, on each side of the index check. -/
theorem kldLoadsTheEntry : Obligations.KldLoadsTheEntry := by
  intro rd idx
  rw [← encodeHead_kld]
  exact ⟨wordOf_encodeHead (by simp), fun s =>
    ⟨fun hlt hfit => ⟨_, exec_kld_of_lt rd hlt hfit, setReg_writesReg s rd _⟩,
      fun hge => ⟨_, exec_kld_of_ge rd hge, raise_entersFault s .keyRange _⟩⟩⟩

/-- Settles O24: the word is the encoder's word of `NOP`. -/
theorem nopChangesNothing : Obligations.NopChangesNothing :=
  ⟨wordOf_encodeHead (i := .nop) (by simp), fun _ => rfl⟩

/-- Settles O25: every 16-bit number fits at legal parameters. -/
theorem ldsLoadsTheImmediate : Obligations.LdsLoadsTheImmediate := by
  intro rd imm
  rw [← encodeHead_lds]
  exact ⟨wordOf_encodeHead (by simp), fun s hlegal =>
    ⟨_, exec_lds_of_fits rd (fits_of_lt hlegal imm.isLt), setReg_writesReg s rd _⟩⟩

/-- Settles O27, by the capacity-checked write of a value that fits. -/
theorem movCopiesTheRegister : Obligations.MovCopiesTheRegister := by
  intro rd ra
  rw [← encodeHead_mov]
  exact ⟨wordOf_encodeHead (by simp), fun s hfit => ⟨_, exec_mov_of_fits rd hfit, setReg_writesReg s rd _⟩⟩

/-- Settles O31, by the capacity-checked write of a value that fits. -/
theorem mvaCopiesTheAccumulator : Obligations.MvaCopiesTheAccumulator := by
  intro rd
  rw [← encodeHead_mva]
  exact ⟨wordOf_encodeHead (by simp), fun s hfit => ⟨_, exec_mva_of_fits rd hfit, setReg_writesReg s rd _⟩⟩

end Sys2Proof.Machine
end

section
/-! SUPPORT. The arithmetic of 41_euclid.md: the remainder sequence of rule R100, and the two algorithms of rules R104
and R106 as congruences modulo `m`. -/
namespace Sys2Proof.Machine

/-! ### The greatest common divisor (rule R100) -/

/-- A step of the remainder sequence keeps the gcd of its two terms. -/
theorem gcdOf_mod (a b : Nat) : gcdOf b (a % b) = gcdOf a b := by
  rw [gcdOf, gcdOf, Nat.gcd_comm a b, Nat.gcd_rec b a, Nat.gcd_comm]

theorem remainderSeq_eq_gcdOf {fuel b : Nat} (hb : b < fuel) (a : Nat) : remainderSeq fuel a b = gcdOf a b := by
  induction fuel generalizing a b with
  | zero => omega
  | succ fuel ih =>
    rw [remainderSeq]
    split
    case isTrue h0 => rw [h0, gcdOf, Nat.gcd_zero_right]
    case isFalse h0 =>
      have hlt : a % b < b := Nat.mod_lt a (Nat.pos_of_ne_zero h0)
      rw [ih (by omega), gcdOf_mod]

theorem fits_gcdOf {p : Params} {a b : Nat} (ha : fits p a = true) (hb : fits p b = true) :
    fits p (gcdOf a b) = true := by
  rcases Nat.eq_zero_or_pos a with h0 | hpos
  · rwa [h0, gcdOf, Nat.gcd_zero_left]
  · exact fits_mono ha (Nat.gcd_le_left b hpos)

/-! ### Residues and inverses modulo `m` (rules R9, R102, R103) -/

theorem emod_lt (z : Int) {m : Nat} (hm : 1 ≤ m) : emod z m < m := by
  have hlt := Int.emod_lt_of_pos z (b := m) (by omega)
  rw [← natCast_emod z hm] at hlt
  omega

theorem emod_eq_of_modEq {a b : Int} {m : Nat} (h : a ≡ b [ZMOD m]) : emod a m = emod b m :=
  congrArg Int.toNat h

theorem emod_natCast {m x : Nat} (hx : x < m) : emod x m = x := by
  rw [emod, ← Int.natCast_mod, Int.toNat_natCast, Nat.mod_eq_of_lt hx]

/-- The condition of rule R102 as a congruence of integers. -/
theorem mul_mod_eq_one_iff {m : Nat} (hm : 2 ≤ m) (w x : Nat) : w * x % m = 1 ↔ (x * w : Int) ≡ 1 [ZMOD m] := by
  rw [← Nat.cast_mul, ← Nat.cast_one (R := Int), Int.natCast_modEq_iff, Nat.ModEq, Nat.mod_eq_of_lt hm, Nat.mul_comm]

/-- Two multipliers that take `w` to 1 are congruent: either is 1 times itself, and the other gives that 1. -/
theorem modEq_of_mul_modEq_one {m t t' w : Int} (h : t * w ≡ 1 [ZMOD m]) (h' : t' * w ≡ 1 [ZMOD m]) :
    t ≡ t' [ZMOD m] :=
  calc t = t * 1 := (mul_one t).symm
    _ ≡ t * (t' * w) [ZMOD m] := h'.symm.mul_left t
    _ = t' * (t * w) := mul_left_comm t t' w
    _ ≡ t' * 1 [ZMOD m] := h.mul_left t'
    _ = t' := mul_one t'

/-- The coefficients for `w` in Bézout identities are those with this residue of `t * w`. -/
theorem exists_bezout_iff {m w t r : Int} : (∃ u, u * m + t * w = r) ↔ t * w ≡ r [ZMOD m] := by
  constructor
  · rintro ⟨u, hu⟩
    exact Int.modEq_iff_dvd.2 ⟨u, by linarith⟩
  · intro h
    obtain ⟨u, hu⟩ := Int.modEq_iff_dvd.1 h
    exact ⟨u, by linarith⟩

/-! ### The passes of Euclid's algorithm on a coprime pair (rules R104, R106, R108) -/

/-- Euclid's algorithm from `r0` and `r1` reaches remainder 1 in fewer than `fuel` passes. -/
inductive ReachesOne : Nat → Nat → Nat → Prop where
  /-- The remainder is 1 already. -/
  | last (fuel r0 : Nat) : ReachesOne (fuel + 1) r0 1
  /-- One pass, and the passes from the next two terms. -/
  | pass {fuel r0 r1 : Nat} : r1 ≠ 1 → ReachesOne fuel r1 (r0 % r1) → ReachesOne (fuel + 1) r0 r1

/-- On a coprime pair the second number falls on every pass and cannot reach 0 before 1, since 0 is coprime to 1 only;
so as many passes as that number are enough. -/
theorem reachesOne_of_coprime {fuel r0 r1 : Nat} (hpos : 0 < r1) (hle : r1 ≤ fuel) (hcop : Nat.Coprime r0 r1) :
    ReachesOne fuel r0 r1 := by
  induction fuel generalizing r0 r1 with
  | zero => omega
  | succ fuel ih =>
    rcases eq_or_ne r1 1 with rfl | hne
    · exact .last fuel r0
    · have hnext : Nat.Coprime r1 (r0 % r1) := (gcdOf_mod r0 r1).trans hcop
      have hpos' : 0 < r0 % r1 := Nat.pos_of_ne_zero fun h0 => hne (by rwa [h0, Nat.coprime_zero_right] at hnext)
      have hlt : r0 % r1 < r1 := Nat.mod_lt r0 hpos
      exact .pass hne (ih hpos' (by omega) hnext)

@[simp] theorem invLoop_one (fuel r0 : Nat) (t0 t1 : Int) : invLoop (fuel + 1) r0 1 t0 t1 = t1 := rfl

theorem invLoop_pass {r1 : Nat} (h : r1 ≠ 1) (fuel r0 : Nat) (t0 t1 : Int) :
    invLoop (fuel + 1) r0 r1 t0 t1 = invLoop fuel r1 (r0 % r1) t1 (t0 - (r0 / r1 : Nat) * t1) := by
  rw [invLoop, if_neg h, Nat.mod_eq_sub_div_mul]

@[simp] theorem quotients_one (fuel r0 : Nat) : quotients (fuel + 1) r0 1 = [] := rfl

theorem quotients_pass {r1 : Nat} (h : r1 ≠ 1) (fuel r0 : Nat) :
    quotients (fuel + 1) r0 r1 = r0 / r1 :: quotients fuel r1 (r0 % r1) := by
  rw [quotients, if_neg h]

theorem natCast_mod_eq_sub (a b : Nat) : ((a % b : Nat) : Int) = a - (a / b : Nat) * b := by
  rw [Int.natCast_mod, Int.natCast_ediv, Int.emod_def, mul_comm]

/-- The loop of rule R104 keeps `t0 · w ≡ r0` and `t1 · w ≡ r1` modulo `m`, and ends at remainder 1. -/
theorem invLoop_mul_modEq_one {m w t0 t1 : Int} {fuel r0 r1 : Nat} (hr : ReachesOne fuel r0 r1)
    (h0 : t0 * w ≡ r0 [ZMOD m]) (h1 : t1 * w ≡ r1 [ZMOD m]) :
    invLoop fuel r0 r1 t0 t1 * w ≡ 1 [ZMOD m] := by
  induction hr generalizing t0 t1 with
  | last fuel r0 => simpa using h1
  | pass hne _ ih =>
    rw [invLoop_pass hne]
    refine ih h1 ?_
    rw [natCast_mod_eq_sub, sub_mul, mul_assoc]
    exact h0.sub (h1.mul_left _)

/-- The backward pass of rule R106 undoes the forward pass quotient by quotient. -/
theorem backSubstitute_quotients {fuel r0 r1 : Nat} (hr : ReachesOne fuel r0 r1) :
    (backSubstitute (quotients fuel r0 r1)).1 * r0 + (backSubstitute (quotients fuel r0 r1)).2 * r1 = 1 := by
  induction hr with
  | last fuel r0 => simp [backSubstitute]
  | pass hne _ ih =>
    rw [natCast_mod_eq_sub] at ih
    rw [quotients_pass hne, backSubstitute, ← ih]
    ring

/-! ### The inverse (rules R102 to R104) -/

/-- The fuel `w` that the model gives both algorithms is enough. -/
theorem reachesOne_self {m w : Nat} (hm : 2 ≤ m) (h : Nat.Coprime m w) : ReachesOne w m w := by
  have hpos : 0 < w := Nat.pos_of_ne_zero fun h0 => by rw [h0, Nat.coprime_zero_right] at h; omega
  exact reachesOne_of_coprime hpos le_rfl h

theorem bezoutCoef_mul_modEq_one {m w : Nat} (hm : 2 ≤ m) (h : Nat.Coprime m w) :
    bezoutCoef m w * w ≡ 1 [ZMOD m] :=
  invLoop_mul_modEq_one (reachesOne_self hm h) (by simp [Int.ModEq]) (by simp)

theorem inverse_lt {m : Nat} (hm : 2 ≤ m) (w : Nat) : inverse m w < m := emod_lt _ (by omega)

theorem mul_inverse_mod {m w : Nat} (hm : 2 ≤ m) (h : Nat.Coprime m w) : w * inverse m w % m = 1 := by
  rw [mul_mod_eq_one_iff hm, inverse, natCast_emod _ (by omega)]
  exact ((Int.mod_modEq _ _).mul_right _).trans (bezoutCoef_mul_modEq_one hm h)

theorem emod_eq_inverse {m w : Nat} {t : Int} (hm : 2 ≤ m) (h : Nat.Coprime m w) (ht : t * w ≡ 1 [ZMOD m]) :
    emod t m = inverse m w :=
  emod_eq_of_modEq (modEq_of_mul_modEq_one ht (bezoutCoef_mul_modEq_one hm h))

/-- A number with an inverse is coprime to the modulus, so the premise of rule R103 need not be asked for. -/
theorem eq_inverse_of_mul_mod {m w x : Nat} (hm : 2 ≤ m) (hx : x < m) (h : w * x % m = 1) : x = inverse m w := by
  have hcop : Nat.Coprime m w := by
    refine (Nat.coprime_of_mul_modEq_one x (?_ : w * x ≡ 1 [MOD m])).symm
    rw [Nat.ModEq, h, Nat.mod_eq_of_lt hm]
  rw [← emod_natCast hx]
  exact emod_eq_inverse hm hcop ((mul_mod_eq_one_iff hm w x).1 h)

end Sys2Proof.Machine
end

section
/-! SUPPORT. The Euclidean commands: their words as numbers, and what each does on each side of its fault checks (rules
R101, R107). -/
namespace Sys2Proof.Machine

theorem encodeHead_gcd (rd ra rb : Reg) : encodeHead (.gcd rd ra rb) = rWord 0x10 rd.val ra.val rb.val 0 := by
  rw [encodeHead, rFormat_eq_rWord, regBits_toNat, regBits_toNat, regBits_toNat]
  rfl

theorem encodeHead_inv (rd rw rm : Reg) : encodeHead (.inv rd rw rm) = rWord 0x11 rd.val rw.val 0 rm.val := by
  rw [encodeHead, rFormat_eq_rWord, regBits_toNat, regBits_toNat, regBits_toNat]
  rfl

theorem coprimeFlag_iff (g : Nat) : coprimeFlag g = true ↔ g = 1 := beq_iff_eq

theorem exec_gcd_of_fits {s : State} {ra rb : Reg} (rd : Reg) (ha : fits s.params (s.reg ra) = true)
    (hb : fits s.params (s.reg rb) = true) :
    exec (.gcd rd ra rb) s = .next ((s.setReg rd (gcdOf (s.reg ra) (s.reg rb))).setCp
      (coprimeFlag (gcdOf (s.reg ra) (s.reg rb)))) :=
  congrArg Host.Outcome.next (storing_of_fits (fits_gcdOf ha hb))

theorem exec_inv_of_lt_two {s : State} {rm : Reg} (rd rw : Reg) (h : s.reg rm < 2) :
    exec (.inv rd rw rm) s = .next (s.raise .modRange (encodeHead (.inv rd rw rm))) :=
  congrArg Host.Outcome.next (if_pos h)

theorem exec_inv_of_not_coprime {s : State} {rw rm : Reg} (rd : Reg) (hm : 2 ≤ s.reg rm)
    (h : Nat.gcd (s.reg rm) (s.reg rw) ≠ 1) :
    exec (.inv rd rw rm) s = .next (s.raise .notCoprime (encodeHead (.inv rd rw rm))) :=
  congrArg Host.Outcome.next ((if_neg (Nat.not_lt.2 hm)).trans (if_pos h))

/-- The inverse is below a modulus that fits, so the write of `INV` raises no `Capacity`. -/
theorem exec_inv_of_coprime {s : State} {rw rm : Reg} (rd : Reg) (hfit : fits s.params (s.reg rm) = true)
    (hm : 2 ≤ s.reg rm) (h : Nat.gcd (s.reg rm) (s.reg rw) = 1) :
    exec (.inv rd rw rm) s = .next (s.setReg rd (inverse (s.reg rm) (s.reg rw))) :=
  congrArg Host.Outcome.next ((if_neg (Nat.not_lt.2 hm)).trans ((if_neg (not_not.2 h)).trans
    (storing_of_fits (fits_mono hfit (inverse_lt hm (s.reg rw)).le))))

end Sys2Proof.Machine
end

section
/-! PROOFS of the statements about the Euclidean commands (41_euclid.md), and that every step answers a next state. -/
namespace Sys2Proof.Machine

/-- Settles O32: the gcd fits where both operands do, so `GCD` writes the register and `CP`. -/
theorem gcdWritesDivisorAndCoprimeFlag : Obligations.GcdWritesDivisorAndCoprimeFlag := by
  intro rd ra rb
  rw [← encodeHead_gcd]
  refine ⟨wordOf_encodeHead (by simp), fun s ha hb => ?_⟩
  obtain ⟨hval, hregs, hacc, hkeys, hcontrol, hstreams⟩ := setReg_writesReg s rd (gcdOf (s.reg ra) (s.reg rb))
  exact ⟨_, _, exec_gcd_of_fits rd ha hb, hval, Nat.gcd_dvd_left _ _, Nat.gcd_dvd_right _ _,
    fun _ => Nat.dvd_gcd, coprimeFlag_iff _, hregs, hacc, hkeys, hcontrol.flt, hcontrol.cause, hcontrol.fcmd,
    ⟨hstreams.cq, hstreams.rq, hstreams.params⟩⟩

/-- Settles O33, one branch of `INV` after the other. -/
theorem invWritesTheInverse : Obligations.InvWritesTheInverse := by
  intro rd rw rm
  rw [← encodeHead_inv]
  refine ⟨wordOf_encodeHead (by simp), fun s => ⟨fun hfit hm hcop => ?_, fun hlt => ?_, fun hm hcop => ?_⟩⟩
  · exact ⟨_, _, exec_inv_of_coprime rd hfit hm hcop, setReg_writesReg s rd _, inverse_lt hm _,
      mul_inverse_mod hm hcop, fun _ hy => eq_inverse_of_mul_mod hm hy⟩
  · exact ⟨_, exec_inv_of_lt_two rd rw hlt, raise_entersFault s .modRange _⟩
  · exact ⟨_, exec_inv_of_not_coprime rd hm hcop, raise_entersFault s .notCoprime _⟩

/-- Settles O34: the remainder sequence keeps the gcd of its two terms down to the pair of the gcd and 0. -/
theorem gcdIsTheLastRemainder : Obligations.GcdIsTheLastRemainder := fun a b =>
  ⟨Nat.gcd_dvd_left a b, Nat.gcd_dvd_right a b,
    fun _ hpos ha hb => Nat.le_of_dvd (Nat.gcd_pos_iff.2 (by omega)) (Nat.dvd_gcd ha hb),
    Nat.gcd_comm a b, Nat.gcd_zero_right a, Nat.gcd_zero_left a, (remainderSeq_eq_gcdOf (Nat.lt_succ_self b) a).symm⟩

/-- Settles O35: the loop's congruence for the coefficient is the Bézout identity, and its residue is the inverse. -/
theorem referenceAlgorithmComputesTheInverse : Obligations.ReferenceAlgorithmComputesTheInverse := fun m w hm hcop =>
  ⟨inverse_lt hm w, by rw [Nat.mul_comm]; exact mul_inverse_mod hm hcop,
    exists_bezout_iff.2 (bezoutCoef_mul_modEq_one hm hcop)⟩

/-- Settles O36: each listed value is below `m` and times its argument is 1 modulo `m`, so it is the inverse. -/
theorem inverseIsUnique : Obligations.InverseIsUnique := by
  intro m w hm hcop
  have hlt := inverse_lt hm w
  have hone : w * inverse m w % m = 1 := mul_inverse_mod hm hcop
  refine ⟨hlt, hone, fun x hx h => eq_inverse_of_mul_mod hm hx h, ?_, ?_, ?_, ?_, ?_⟩
  · refine Nat.pos_of_ne_zero fun h0 => ?_
    simp [h0] at hone
  · exact eq_inverse_of_mul_mod hm hlt (by rwa [Nat.mod_mul_mod])
  · exact (eq_inverse_of_mul_mod hm hm (Nat.mod_eq_of_lt hm)).symm
  · refine (eq_inverse_of_mul_mod hm (by omega) ?_).symm
    obtain ⟨k, rfl⟩ := Nat.exists_eq_add_of_le' hm
    have hsq : (k + 2 - 1) * (k + 2 - 1) = 1 + (k + 2) * k := by simp; ring
    rw [hsq, Nat.add_mul_mod_self_left, Nat.mod_eq_of_lt hm]
  · refine (eq_inverse_of_mul_mod hm (Nat.mod_lt w (by omega)) ?_).symm
    rwa [Nat.mul_mod_mod, Nat.mul_comm]

/-- Settles O38: every Bézout coefficient is congruent to the reference one, and back-substitution finds one. -/
theorem anyBezoutCoefficientGivesTheInverse : Obligations.AnyBezoutCoefficientGivesTheInverse := by
  intro m w hm hcop
  have hany (u t : Int) (h : u * m + t * w = 1) : emod t m = inverse m w :=
    emod_eq_inverse hm hcop (exists_bezout_iff.1 ⟨u, h⟩)
  exact ⟨hany, hany _ _ (backSubstitute_quotients (reachesOne_self hm hcop))⟩

/-- Settles O14, from `exec_next` and `step_next`. -/
theorem everyStepAnswersNext : Obligations.EveryStepAnswersNext := ⟨exec_next, step_next⟩

end Sys2Proof.Machine
end

section
/-! SUPPORT. The modular multiplier and the accumulator: their words as numbers, what each command does on each side of
its fault checks (rules R122, R125), a run of `ACLR` and `MACB` commands (rule R127), and the subset sum as an explicit
sum (rule R123). -/
namespace Sys2Proof.Machine

theorem encodeHead_mulm (rd ra rb rm : Reg) :
    encodeHead (.mulm rd ra rb rm) = rWord 0x12 rd.val ra.val rb.val rm.val := by
  rw [encodeHead, rFormat_eq_rWord, regBits_toNat, regBits_toNat, regBits_toNat, regBits_toNat]
  rfl

theorem encodeHead_macb (idx : BitVec 16) (bit : Bool) :
    encodeHead (.macb idx bit) = iWord 0x19 0 bit.toNat idx.toNat := by
  rw [encodeHead, iFormat_eq_iWord, bitFlag_toNat]
  cases bit <;> rfl

/-! ### What each command does -/

theorem mulmod_lt (a b : Nat) {m : Nat} (hm : m ≠ 0) : mulmod a b m < m := Nat.mod_lt _ (Nat.pos_of_ne_zero hm)

/-- The product is below a modulus that fits, so the write of `MULM` raises no `Capacity`, whatever the factors. -/
theorem exec_mulm_of_ne_zero {s : State} {rm : Reg} (rd ra rb : Reg) (hfit : fits s.params (s.reg rm) = true)
    (hm : s.reg rm ≠ 0) :
    exec (.mulm rd ra rb rm) s = .next (s.setReg rd (mulmod (s.reg ra) (s.reg rb) (s.reg rm))) :=
  congrArg Host.Outcome.next ((if_neg hm).trans (storing_of_fits (fits_mono hfit (mulmod_lt _ _ hm).le)))

theorem exec_mulm_of_eq_zero {s : State} {rm : Reg} (rd ra rb : Reg) (hm : s.reg rm = 0) :
    exec (.mulm rd ra rb rm) s = .next (s.raise .modRange (encodeHead (.mulm rd ra rb rm))) :=
  congrArg Host.Outcome.next (if_pos hm)

theorem exec_macb_of_not_fits {s : State} {idx : BitVec 16} {bit : Bool} (hidx : idx.toNat < s.params.ktSize)
    (h : fits s.params (s.acc + s.macbTerm idx bit) = false) :
    exec (.macb idx bit) s = .next (s.raise .capacity (encodeHead (.macb idx bit))) :=
  congrArg Host.Outcome.next ((withKey_of_lt hidx).trans (storing_of_not_fits h))

theorem exec_macb_of_ge {s : State} {idx : BitVec 16} (bit : Bool) (hidx : s.params.ktSize ≤ idx.toNat) :
    exec (.macb idx bit) s = .next (s.raise .keyRange (encodeHead (.macb idx bit))) :=
  congrArg Host.Outcome.next (withKey_of_ge hidx)

/-! ### A run of `ACLR` and `MACB` commands (rule R127) -/

theorem macbSum_eq (s : State) (terms : List (BitVec 16 × Bool)) :
    macbSum s terms = (terms.map fun x => if x.2 then s.ktRead x.1.toNat else 0).sum := by
  simp only [macbSum, macbTerm_eq]

/-- Outside the fault state, the words of `ACLR` and `MACB` commands at the head of `CQ` leave the sum of the terms in
the accumulator, one command a step. -/
theorem run_aclr_macbs {s : State} {terms : List (BitVec 16 × Bool)} {rest : List Word} (hflt : s.status.flt = false)
    (hidx : ∀ x ∈ terms, x.1.toNat < s.params.ktSize) (hcq : s.cq = encodeAll (.aclr :: macbs terms) ++ rest)
    (hfit : fits s.params (macbSum s terms) = true) :
    Host.Core.run Sys2Proof.core (terms.length + 1) s = .next ((s.setCq rest).setAcc (macbSum s terms)) := by
  have haclr : decode s.cq = .command .aclr (encodeAll (macbs terms) ++ rest) := by
    rw [hcq, decode_encodeAll_cons rfl]
  have hmacbs := run_macbs (s := (s.setCq (encodeAll (macbs terms) ++ rest)).setAcc 0) 0 hflt hidx rfl
    (by rwa [setAcc_acc, Nat.zero_add])
  rw [setAcc_acc, Nat.zero_add] at hmacbs
  exact (run_command terms.length haclr hflt (exec_aclr _)).trans hmacbs

/-! ### The subset sum (rule R123) -/

theorem ssum_eq_sum {bits : List Bool} {pk : List Nat} (hlen : bits.length = pk.length) :
    ssum bits pk = ((List.range pk.length).map fun j => if bits.getD j false then pk.getD j 0 else 0).sum := by
  induction bits generalizing pk with
  | nil =>
    obtain rfl : pk = [] := List.length_eq_zero_iff.1 hlen.symm
    rfl
  | cons bit bits ih =>
    cases pk with
    | nil => cases hlen
    | cons p pk =>
      have hhead : bitVal bit * p = if bit then p else 0 := by cases bit <;> simp [bitVal]
      rw [ssum, hhead, ih (Nat.succ.inj hlen), List.length_cons, List.range_succ_eq_map, List.map_cons, List.sum_cons,
        List.map_map]
      rfl

theorem ssum_replicate_false (n : Nat) (pk : List Nat) : ssum (List.replicate n false) pk = 0 := by
  induction n generalizing pk with
  | zero => rfl
  | succ n ih =>
    cases pk with
    | nil => rfl
    | cons p pk => rw [List.replicate_succ, ssum, ih, bitVal, if_neg Bool.false_ne_true, Nat.zero_mul]

end Sys2Proof.Machine
end

section
/-! PROOFS of the statements about the modular multiplier and the accumulator (42_modmul_accumulate.md). -/
namespace Sys2Proof.Machine

/-- Settles O40, on each side of the modulus check: the reduced product fits where the modulus does. -/
theorem mulmWritesTheProduct : Obligations.MulmWritesTheProduct := by
  intro rd ra rb rm
  rw [← encodeHead_mulm]
  exact ⟨wordOf_encodeHead (by simp), fun s =>
    ⟨fun hfit hm => ⟨_, exec_mulm_of_ne_zero rd ra rb hfit hm, setReg_writesReg s rd _⟩,
      fun hm => ⟨_, exec_mulm_of_eq_zero rd ra rb hm, raise_entersFault s .modRange _⟩⟩⟩

/-- Settles O42, one branch of `MACB` after the other: the index check stands before the capacity check. -/
theorem macbAddsTheSelectedEntry : Obligations.MacbAddsTheSelectedEntry := by
  intro idx bit
  rw [← encodeHead_macb]
  refine ⟨wordOf_encodeHead (by simp), fun s v hv => ?_⟩
  obtain rfl : v = s.acc + s.macbTerm idx bit := by rw [hv, macbTerm_eq, apply_ite (s.acc + ·), Nat.add_zero]
  exact ⟨fun hlt hfit => ⟨_, exec_macb_of_fits hlt hfit, setAcc_writesAcc s _⟩,
    fun hlt hfit => ⟨_, exec_macb_of_not_fits hlt hfit, raise_entersFault s .capacity _⟩,
    fun hge => ⟨_, exec_macb_of_ge bit hge, raise_entersFault s .keyRange _⟩⟩

/-- Settles O43: `ACLR` makes the accumulator 0, and the `MACB` commands add their terms to it one a step. -/
theorem accumulatorSequenceSums : Obligations.AccumulatorSequenceSums := by
  intro s terms rest v hflt hidx hcq hv hfit
  obtain rfl : v = macbSum s terms := hv.trans (macbSum_eq s terms).symm
  exact ⟨_, run_aclr_macbs hflt hidx hcq hfit, setAcc_writesAcc (s.setCq rest) _⟩

/-- Settles O58, by induction along the block; with no bit 1 the block is a row of zeros. -/
theorem subsetSumIsTheSum : Obligations.SubsetSumIsTheSum := by
  refine fun bits pk hlen => ⟨ssum_eq_sum hlen, fun hzero => ?_⟩
  rw [List.eq_replicate_of_mem hzero]
  exact ssum_replicate_false _ pk

/-- Settles O41: 0 fits whatever `MAXBITS` is. -/
theorem aclrClearsTheAccumulator : Obligations.AclrClearsTheAccumulator :=
  ⟨wordOf_encodeHead (i := .aclr) (by simp), fun s => ⟨_, exec_aclr s, setAcc_writesAcc s 0⟩⟩

end Sys2Proof.Machine
end

section
/-! SUPPORT. The system commands: the status word as a number, fault return outside the fault state, and what `RST`
leaves (rules R72, R141, R142). -/
namespace Sys2Proof.Machine

theorem statusWord_eq_ofNat (st : Status) :
    statusWord st = BitVec.ofNat 32 (0x20000000 + 16 * st.cause.toNat + 2 * st.cp.toNat + st.flt.toNat) := by
  rw [← statusWord_toNat, BitVec.ofNat_toNat, BitVec.setWidth_eq]

theorem returned_eq_self {st : Status} (hflt : st.flt = false) (hcause : st.cause = 0#4) : st.returned = st := by
  rw [Status.returned, ← hflt, ← hcause]

/-- Outside the fault state the invariant has `CAUSE` and `FCMD` at 0 already. -/
theorem EngineInv.clearFault_eq_self {s : State} (h : EngineInv s) (hflt : s.status.flt = false) :
    s.clearFault = s := by
  have hcause : s.status.cause = 0#4 := by simpa [hflt] using h.fltCause
  rw [State.clearFault, returned_eq_self hflt hcause, ← h.fcmdZero hflt]

theorem clearAll_zeroised (s : State) : Zeroised s.clearAll :=
  ⟨reg_clearAll s, rfl, ktRead_clearAll s, rfl, rfl, rfl, rfl⟩

end Sys2Proof.Machine
end

section
/-! PROOFS of the statements about the system commands (43_system.md). -/
namespace Sys2Proof.Machine

/-- Settles O46: the first word sent is the status word, which the statement writes as a number. -/
theorem rdsReportsTheStatus : Obligations.RdsReportsTheStatus := by
  refine ⟨wordOf_encodeHead (i := .rds) (by simp), fun s => ?_⟩
  rw [← statusWord_eq_ofNat]
  exact ⟨_, rfl, emit_emits s _⟩

/-- Settles O47: `CLRF` is fault return, which outside the fault state finds nothing to clear. -/
theorem clrfLeavesTheFaultState : Obligations.ClrfLeavesTheFaultState :=
  ⟨wordOf_encodeHead (i := .clrf) (by simp), fun s =>
    ⟨s.clearFault, rfl, rfl, rfl, rfl, rfl, reg_clearFault s, rfl, ktRead_clearFault s, ⟨rfl, rfl, rfl⟩,
      EngineInv.clearFault_eq_self⟩⟩

/-- Settles O48: the decoder takes the payload of an `LDI` whatever its words are, the word of `RST` among them. -/
theorem rstZeroisesAndKeepsTheStreams : Obligations.RstZeroisesAndKeepsTheStreams :=
  ⟨wordOf_encodeHead (i := .rst) (by simp),
    fun s => ⟨s.clearAll, rfl, clearAll_zeroised s, ⟨rfl, rfl, rfl⟩⟩,
    fun rd => (ldiLoadsThePayloadValue rd [0x3F000000#32] (by simp)).1⟩

end Sys2Proof.Machine
end

section
/-! SUPPORT. The host's sequences: what a run of three commands does that `LDV` starts, the status word outside the
fault state, and the residues of a selected sum (rules R74, R140, R156). -/
namespace Sys2Proof.Machine

/-! ### A run of commands (rules R47, R69) -/

/-- What a command does does not depend on `CQ`, whatever stands in it. -/
theorem exec_setCq {i : Instr} {s t : State} (h : exec i s = .next t) (ws : List Word) :
    exec i (s.setCq ws) = .next (t.setCq ws) := by
  obtain ⟨u, hu⟩ := exec_next i (s.setCq [])
  obtain ⟨-, -, -, -, -, -, hcq, -⟩ := commandsChangeOnlyTheirState i _ u hu
  have hws (qs : List Word) : exec i (s.setCq qs) = .next (u.setCq qs) := by
    have happ := exec_append hu qs
    have happend : u.append qs = u.setCq qs := by rw [State.append, hcq, setCq_cq, List.nil_append]
    exact happ.trans (congrArg Host.Outcome.next happend)
  obtain rfl : u.setCq s.cq = t := Host.Outcome.next.inj ((hws s.cq).symm.trans h)
  exact hws ws

/-- Outside the fault state, the first of a list of commands at the head of `CQ` in front of the run of the others. -/
theorem run_encodeAll_cons {i : Instr} {s t : State} (hi : i.WellFormed = true) (h : exec i s = .next t)
    (hflt : s.status.flt = false) (is : List Instr) (rest : List Word) :
    Host.Core.run Sys2Proof.core (is.length + 1) (s.setCq (encodeAll (i :: is) ++ rest)) =
      Host.Core.run Sys2Proof.core is.length (t.setCq (encodeAll is ++ rest)) :=
  run_command _ (decode_encodeAll_cons hi is rest) hflt (exec_setCq h _)

/-- The shape of the sequences of rules R151, R153 and R155: `LDV` and two commands that execute after it. -/
theorem run_ldv_two {s t u : State} {rd : Reg} {value : Nat} {load i j : Instr} {rest : List Word}
    (hload : ldv rd value = some load) (hfit : fits s.params value = true) (hi : i.WellFormed = true)
    (hj : j.WellFormed = true) (hcq : s.cq = encodeAll [load, i, j] ++ rest) (hs : s.status.flt = false)
    (hexec_i : exec i (s.setReg rd value) = .next t) (hexec_j : exec j t = .next u) (ht : t.status.flt = false) :
    Host.Core.run Sys2Proof.core 3 s = .next (u.setCq rest) := by
  have hself : s = s.setCq (encodeAll [load, i, j] ++ rest) := by rw [← hcq]; rfl
  rw [hself]
  exact (run_encodeAll_cons (wellFormed_of_ldv hload) (exec_of_ldv hload hfit) hs [i, j] rest).trans
    ((run_encodeAll_cons hi hexec_i hs [j] rest).trans (run_encodeAll_cons hj hexec_j ht [] rest))

/-! ### The status word outside the fault state (rules R24, R72) -/

theorem EngineInv.cause_eq_zero {s : State} (h : EngineInv s) (hflt : s.status.flt = false) :
    s.status.cause = 0#4 := by
  simpa [hflt] using h.fltCause

theorem statusWord_withCp {st : Status} (hflt : st.flt = false) (hcause : st.cause = 0#4) (cp : Bool) :
    statusWord (st.withCp cp) = if cp then 0x20000002#32 else 0x20000000#32 := by
  rw [statusWord_eq_ofNat, withCp_flt, withCp_cause, withCp_cp, hflt, hcause]
  cases cp <;> rfl

/-! ### The size of a residue (rule R9) -/

theorem nlimbs_mono {a b : Nat} (h : a ≤ b) : nlimbs a ≤ nlimbs b :=
  (nlimbs_le_iff a _).2 (h.trans_lt ((nlimbs_le_iff b _).1 le_rfl))

/-! ### The trapdoor (rule R156) -/

/-- Modulo `m`, the sum of the selected entries `(w · s[j]) mod m` is `w` times the sum of the selected terms. -/
theorem sum_mulmod_modEq (m w : Nat) (seq : List Nat) (bits : List Bool) :
    ((List.range seq.length).map fun j => if bits.getD j false then mulmod w (seq.getD j 0) m else 0).sum ≡
      w * ((List.range seq.length).map fun j => if bits.getD j false then seq.getD j 0 else 0).sum [MOD m] := by
  rw [← List.sum_map_mul_left]
  induction List.range seq.length with
  | nil => rfl
  | cons j js ih =>
    refine Nat.ModEq.add ?_ ih
    dsimp only
    split
    · exact Nat.mod_modEq _ m
    · rfl

/-- The selected terms add up to no more than all terms. -/
theorem selected_sum_le (seq : List Nat) (bits : List Bool) :
    ((List.range seq.length).map fun j => if bits.getD j false then seq.getD j 0 else 0).sum ≤ seq.sum := by
  have hall : (List.range seq.length).map (fun j => seq.getD j 0) = seq :=
    List.ext_getElem (by simp) fun j _ hj => by simp [hj]
  conv_rhs => rw [← hall]
  refine List.sum_le_sum fun j _ => ?_
  split
  · exact le_rfl
  · exact Nat.zero_le _

/-- Multiplying by the inverse undoes the multiplier on a residue. -/
theorem mulmod_inverse_of_modEq {m w c x : Nat} (hm : 2 ≤ m) (hcop : Nat.Coprime m w) (hx : x < m)
    (hc : c ≡ w * x [MOD m]) : mulmod c (inverse m w) m = x := by
  have hone : w * inverse m w ≡ 1 [MOD m] := (mul_inverse_mod hm hcop).trans (Nat.mod_eq_of_lt hm).symm
  have hmod : c * inverse m w ≡ x [MOD m] :=
    calc c * inverse m w
      _ ≡ w * x * inverse m w [MOD m] := hc.mul_right _
      _ = w * inverse m w * x := Nat.mul_right_comm _ _ _
      _ ≡ 1 * x [MOD m] := hone.mul_right x
      _ = x := Nat.one_mul x
  exact Eq.trans hmod (Nat.mod_eq_of_lt hx)

end Sys2Proof.Machine
end

section
/-! PROOFS of the statements about the host's sequences (44_host_sequences.md). -/
namespace Sys2Proof.Machine

/-- Settles O45: the cipher value is congruent to `w` times the selected sum, the inverse cancels `w`, and the selected
sum is below `m` because the whole sum is. -/
theorem trapdoorIdentity : Obligations.TrapdoorIdentity := by
  rintro m w _ seq bits hm hcop hsum rfl
  exact mulmod_inverse_of_modEq hm hcop ((selected_sum_le seq bits).trans_lt hsum) (sum_mulmod_modEq m w seq bits)

/-- Settles O54: `GCD` puts the answer into `CP`, and outside the fault state `CP` is all the status word shows. -/
theorem searchAttemptAnswersCoprime : Obligations.SearchAttemptAnswersCoprime := by
  intro s w is rest hinv hflt hfit his hcq
  obtain ⟨load, hload, rfl⟩ := Option.map_eq_some_iff.1 his
  have hinv' : EngineInv (s.setReg 1 w) := hinv.setReg 1 hfit
  have hgcd : exec (.gcd 2 0 1) (s.setReg 1 w) =
      .next (((s.setReg 1 w).setReg 2 (gcdOf (s.reg 0) w)).setCp (coprimeFlag (gcdOf (s.reg 0) w))) := by
    simpa using exec_gcd_of_fits 2 (hinv'.regsFit 0) (hinv'.regsFit 1)
  have hword : statusWord (s.status.withCp (coprimeFlag (gcdOf (s.reg 0) w))) =
      if Nat.gcd (s.reg 0) w = 1 then 0x20000002#32 else 0x20000000#32 := by
    rw [statusWord_withCp hflt (hinv.cause_eq_zero hflt)]
    simp only [coprimeFlag_iff, gcdOf]
  refine ⟨_, run_ldv_two hload hfit rfl rfl hcq hflt hgcd rfl hflt, rfl, ?_, by simp, by simp⟩
  rw [← hword, ← hinv.fcmdZero hflt]
  rfl

/-- Settles O55: `MULM` reduces by a modulus that fits, so the product fits too and `KST` stores it. -/
theorem publicKeyEntryIsStored : Obligations.PublicKeyEntryIsStored := by
  intro s term i is rest hinv hflt hm hfit hi his hcq
  obtain ⟨load, hload, rfl⟩ := Option.map_eq_some_iff.1 his
  have hprod : fits s.params (s.reg 1 * term % s.reg 0) = true := fits_mono (hinv.regsFit 0) (mulmod_lt _ _ hm).le
  have hmulm : exec (.mulm 5 1 4 0) (s.setReg 4 term) =
      .next ((s.setReg 4 term).setReg 5 (s.reg 1 * term % s.reg 0)) := by
    simpa [mulmod] using exec_mulm_of_ne_zero 5 1 4 ((hinv.setReg 4 hfit).regsFit 0) (by simpa using hm)
  generalize s.reg 1 * term % s.reg 0 = p at hprod hmulm ⊢
  have hkst : exec (.kst 5 i) ((s.setReg 4 term).setReg 5 p) =
      .next (((s.setReg 4 term).setReg 5 p).ktSet i.toNat p) := by
    simpa using exec_kst_of_lt (s := (s.setReg 4 term).setReg 5 p) (ra := 5) hi (by simpa using hprod)
  have hwrites := ktSet_writesKey (s := (s.setReg 4 term).setReg 5 p) hinv.table i.toNat p
  exact ⟨_, run_ldv_two hload hfit rfl rfl hcq hflt hmulm hkst hflt, rfl, rfl, hwrites.value, hwrites.keys, by simp,
    by simp, by simp, ⟨rfl, rfl, rfl, rfl⟩⟩

/-- Settles O56: the product is below the modulus, so it has no more limbs than the modulus and `RDR` sends them. -/
theorem decryptFirstStepReduces : Obligations.DecryptFirstStepReduces := by
  intro s c is rest hinv hflt hm hlimbs hfit his hcq
  obtain ⟨load, hload, rfl⟩ := Option.map_eq_some_iff.1 his
  have hprod : nlimbs (c * s.reg 3 % s.reg 0) ≤ Config.maxXferLimbs :=
    (nlimbs_mono (mulmod_lt _ _ hm).le).trans hlimbs
  have hmulm : exec (.mulm 7 6 3 0) (s.setReg 6 c) = .next ((s.setReg 6 c).setReg 7 (c * s.reg 3 % s.reg 0)) := by
    simpa [mulmod] using exec_mulm_of_ne_zero 7 6 3 ((hinv.setReg 6 hfit).regsFit 0) (by simpa using hm)
  generalize c * s.reg 3 % s.reg 0 = p at hprod hmulm ⊢
  have hrdr : exec (.rdr 7) ((s.setReg 6 c).setReg 7 p) =
      .next (((s.setReg 6 c).setReg 7 p).emit (rdrHeader (nlimbs p) :: limbs p)) := by
    simpa using exec_rdr_of_le (s := (s.setReg 6 c).setReg 7 p) (ra := 7) (by simpa using hprod)
  refine ⟨_, limbs p, run_ldv_two hload hfit rfl rfl hcq hflt hmulm hrdr hflt, rfl, by simp, ?_, limbsValue_limbs p⟩
  rw [length_limbs, ← rdrHeader_eq_ofNat hprod]
  rfl

end Sys2Proof.Machine
end

section
/-! SUPPORT. Fault entry: how a command enters the fault state, the words it took from `CQ`, and the cause after each
command on each side of its fault checks (rules R170 to R174). -/
namespace Sys2Proof

/-- A command leaves `CQ` as its own command word and as many words behind it as that word announces (rules R60,
R68). -/
theorem eq_encodeHead_cons_of_decode {ws rest : List Word} {i : Instr} (h : decode ws = .command i rest) :
    ∃ tail, ws = encodeHead i :: tail ∧ rest = tail.drop (payloadLength (encodeHead i)) := by
  obtain ⟨-, henc⟩ := wellFormed_and_encode_of_decode h
  obtain ⟨w, tail, rfl, hcases⟩ := decode_command_cases h
  obtain rfl : encodeHead i = w := (List.cons.inj henc).1
  refine ⟨tail, rfl, ?_⟩
  obtain ⟨hw, hrest⟩ | ⟨rd, len, hw, -, -, hrest⟩ := hcases
  · simpa [payloadLength, hw] using hrest
  · simpa [payloadLength, hw] using hrest

namespace Machine

/-! ### Cause codes (rule R171) -/

theorem eq_keyRange_of_causeCode {k : FaultKind} (h : causeCode k = 4#4) : k = .keyRange := by
  revert h
  cases k <;> decide

theorem eq_capacity_of_causeCode {k : FaultKind} (h : causeCode k = 5#4) : k = .capacity := by
  revert h
  cases k <;> decide

/-! ### How a command enters the fault state (rules R170, R173) -/

/-- The only effect that sets `FLT` is fault entry; `KeyRange` needs an index that does not exist, and `Capacity` a
number that does not fit, or `RDR`. -/
theorem Effect.exists_raise {i : Instr} {s t : State} (he : Effect i s t) (hs : s.status.flt = false)
    (ht : t.status.flt = true) :
    ∃ k, t = s.raise k (encodeHead i) ∧ (k = .keyRange → s.params.ktSize < 65536) ∧
      (k = .capacity → s.params.maxBits ≠ none ∨ ∃ ra, i = .rdr ra) := by
  cases he with
  | raised k _ _ hkey hcap => exact ⟨k, rfl, hkey, hcap⟩
  | _ => simp [hs] at ht

/-- Of the commands that execute in the fault state, one that does not leave it keeps what `CAUSE` and `FCMD` describe
(rule R176). -/
theorem exec_keeps_fault {i : Instr} {s t : State} (hi : executesInFault i = true) (h : exec i s = .next t)
    (ht : t.status.flt = true) : t.status.cause = s.status.cause ∧ t.fcmd = s.fcmd := by
  obtain rfl | rfl | rfl := (executesInFault_iff i).1 hi
  · cases h
    exact ⟨rfl, rfl⟩
  · cases h
    exact absurd ht Bool.false_ne_true
  · cases h
    exact absurd ht Bool.false_ne_true

/-! ### The cause after a command (rules R171, R172) -/

/-- The cause after a command is that of the state it is known to answer. -/
theorem cause_of_exec {i : Instr} {s t u : State} (h : exec i s = .next t) (hu : exec i s = .next u) :
    t.status.cause = u.status.cause :=
  congrArg (·.status.cause) (Host.Outcome.next.inj (h.symm.trans hu))

section Causes

variable {s t : State} (hcause : s.status.cause = 0#4)
include hcause

theorem cause_ldi {rd : Reg} {payload : List Word} (h : exec (.ldi rd payload) s = .next t) :
    t.status.cause = if fits s.params (limbsValue payload) = true then 0#4 else 5#4 := by
  split
  case isTrue hfit => exact (cause_of_exec h (exec_ldi_of_fits rd hfit)).trans hcause
  case isFalse hfit => exact cause_of_exec h (exec_ldi_of_not_fits rd (Bool.eq_false_of_not_eq_true hfit))

theorem cause_rdr {ra : Reg} (h : exec (.rdr ra) s = .next t) :
    t.status.cause = if 65535 < nlimbs (s.reg ra) then 5#4 else 0#4 := by
  split
  case isTrue hlt => exact cause_of_exec h (exec_rdr_of_lt hlt)
  case isFalse hle => exact (cause_of_exec h (exec_rdr_of_le (Nat.not_lt.1 hle))).trans hcause

theorem cause_kst {ra : Reg} {idx : BitVec 16} (hfit : fits s.params (s.reg ra) = true)
    (h : exec (.kst ra idx) s = .next t) :
    t.status.cause = if s.params.ktSize ≤ idx.toNat then 4#4 else 0#4 := by
  split
  case isTrue hge => exact cause_of_exec h (exec_kst_of_ge ra hge)
  case isFalse hlt => exact (cause_of_exec h (exec_kst_of_lt (Nat.not_le.1 hlt) hfit)).trans hcause

theorem cause_kld {rd : Reg} {idx : BitVec 16} (hfit : fits s.params (s.ktRead idx.toNat) = true)
    (h : exec (.kld rd idx) s = .next t) :
    t.status.cause = if s.params.ktSize ≤ idx.toNat then 4#4 else 0#4 := by
  split
  case isTrue hge => exact cause_of_exec h (exec_kld_of_ge rd hge)
  case isFalse hlt => exact (cause_of_exec h (exec_kld_of_lt rd (Nat.not_le.1 hlt) hfit)).trans hcause

theorem cause_inv {rd rw rm : Reg} (hfit : fits s.params (s.reg rm) = true) (h : exec (.inv rd rw rm) s = .next t) :
    t.status.cause =
      if s.reg rm < 2 then 2#4 else if Nat.gcd (s.reg rm) (s.reg rw) = 1 then 0#4 else 3#4 := by
  split
  case isTrue hlt => exact cause_of_exec h (exec_inv_of_lt_two rd rw hlt)
  case isFalse hm =>
    have hm2 : 2 ≤ s.reg rm := Nat.not_lt.1 hm
    split
    case isTrue hcop => exact (cause_of_exec h (exec_inv_of_coprime rd hfit hm2 hcop)).trans hcause
    case isFalse hcop => exact cause_of_exec h (exec_inv_of_not_coprime rd hm2 hcop)

theorem cause_mulm {rd ra rb rm : Reg} (hfit : fits s.params (s.reg rm) = true)
    (h : exec (.mulm rd ra rb rm) s = .next t) :
    t.status.cause = if s.reg rm = 0 then 2#4 else 0#4 := by
  split
  case isTrue hm => exact cause_of_exec h (exec_mulm_of_eq_zero rd ra rb hm)
  case isFalse hm => exact (cause_of_exec h (exec_mulm_of_ne_zero rd ra rb hfit hm)).trans hcause

theorem cause_macb {idx : BitVec 16} {bit : Bool} (h : exec (.macb idx bit) s = .next t) :
    t.status.cause =
      if s.params.ktSize ≤ idx.toNat then 4#4
      else if fits s.params (s.acc + if bit then s.ktRead idx.toNat else 0) = true then 0#4 else 5#4 := by
  rw [← macbTerm_eq]
  split
  case isTrue hge => exact cause_of_exec h (exec_macb_of_ge bit hge)
  case isFalse hlt =>
    have hidx : idx.toNat < s.params.ktSize := Nat.not_le.1 hlt
    split
    case isTrue hfit => exact (cause_of_exec h (exec_macb_of_fits hidx hfit)).trans hcause
    case isFalse hfit => exact cause_of_exec h (exec_macb_of_not_fits hidx (Bool.eq_false_of_not_eq_true hfit))

end Causes

/-- Outside the fault state, a command that leaves `CAUSE` other than 0 entered the fault state with its own
word. -/
theorem EngineInv.flt_and_fcmd_of_cause_ne {i : Instr} {s t : State} (hinv : EngineInv s) (hs : s.status.flt = false)
    (h : exec i s = .next t) (hne : t.status.cause ≠ 0#4) : t.status.flt = true ∧ t.fcmd = encodeHead i := by
  have ht : t.status.flt = true := (hinv.of_exec h).fltCause.2 hne
  obtain ⟨k, rfl, -, -⟩ := (exec_effect h).exists_raise hs ht
  exact ⟨ht, rfl⟩

end Machine
end Sys2Proof
end

section
/-! PROOFS of the statements about the faults (60_exceptions.md). -/
namespace Sys2Proof.Machine

/-- Settles O10: the engine step, at what the encoder's words, an `Illegal` word, and the head of an `LDI` decode to. -/
theorem faultStateDiscards : Obligations.FaultStateDiscards := by
  intro s hflt
  obtain ⟨-, hwait, hdiscard, hillegal, hexec⟩ := stepFollowsTheEngineStep s
  refine ⟨fun i rest hi hcq => ?_, fun i rest hwf hcq => ?_, fun w rest e hcq he => ?_,
    fun w rest rd len hcq hw hlen => ?_⟩
  · have hwf : i.WellFormed = true := by rcases hi with rfl | rfl | rfl <;> rfl
    exact hexec i rest (hcq ▸ decode_encode_append hwf rest) (.inr hi)
  · exact hdiscard i rest (hcq ▸ decode_encode_append hwf rest) hflt
  · exact (hillegal e w rest (hcq ▸ decode_error he rest)).trans (by rw [if_pos hflt])
  · exact hwait rd len (hcq ▸ decode_ldi_waiting hw hlen)

/-- Settles O11, by the cases of a step: all but an executed command leave `STATUS` and `FCMD` alone. -/
theorem faultsDoNotNest : Obligations.FaultsDoNotNest := by
  intro s t hs h ht
  obtain ⟨-, rfl⟩ | ⟨_, w, rest, -, -, ⟨-, rfl⟩ | ⟨hf, -⟩⟩ | ⟨i, rest, -, ⟨-, -, rfl⟩ | ⟨hf, he⟩⟩ := step_cases h
  · exact ⟨rfl, rfl⟩
  · exact ⟨rfl, rfl⟩
  · simp [hs] at hf
  · exact ⟨rfl, rfl⟩
  · exact exec_keeps_fault (s := s.setCq rest) (hf.resolve_left (by simp [hs])) he ht

/-- Settles O13: the command's effect is fault entry. -/
theorem faultingCommandOnlyRecordsIt : Obligations.FaultingCommandOnlyRecordsIt := by
  intro i s t h hs ht
  obtain ⟨k, rfl, -, -⟩ := (exec_effect h).exists_raise hs ht
  exact raise_entersFault s k _

/-- Settles O12: the step took an `Illegal` word alone, or a command, whose own word is the one at the head of `CQ`. -/
theorem faultStepRecordsTheWordTaken : Obligations.FaultStepRecordsTheWordTaken := by
  intro s t hs h ht
  obtain ⟨-, rfl⟩ | ⟨e, w, rest, hcq, hw, ⟨hf, -⟩ | ⟨-, rfl⟩⟩ | ⟨i, rest, hd, ⟨hf, -, -⟩ | ⟨-, he⟩⟩ := step_cases h
  · simp [hs] at ht
  · simp [hs] at hf
  · have hlen : payloadLength w = 0 := by simp [payloadLength, hw]
    refine ⟨w, rest, hcq, ?_, causeCode_bounds .illegalCmd⟩
    rw [hlen, List.drop_zero]
    exact raise_entersFault _ .illegalCmd w
  · simp [hs] at hf
  · obtain ⟨tail, hcq, rfl⟩ := eq_encodeHead_cons_of_decode hd
    obtain ⟨k, rfl, -, -⟩ := (exec_effect he).exists_raise hs ht
    exact ⟨_, tail, hcq, raise_entersFault _ k _, causeCode_bounds k⟩

/-- Settles O23: each command's cause on each side of its checks; by the invariant the stored values fit, so the other
commands raise nothing; an effect is `KeyRange` or `Capacity` only where the parameters allow it. -/
theorem faultTable : Obligations.FaultTable := by
  refine ⟨fun i s t hinv hs h => ⟨?_, hinv.flt_and_fcmd_of_cause_ne hs h⟩, fun s w rest e hs hcq he => ?_,
    fun i s t h hs ht => ?_⟩
  · have hcause : s.status.cause = 0#4 := hinv.cause_eq_zero hs
    cases i with
    | nop => exact (cause_of_exec h rfl).trans hcause
    | lds rd imm => exact (cause_of_exec h (exec_lds_of_fits rd (fits_of_lt hinv.legal imm.isLt))).trans hcause
    | ldi rd payload => exact cause_ldi hcause h
    | mov rd ra => exact (cause_of_exec h (exec_mov_of_fits rd (hinv.regsFit ra))).trans hcause
    | rdr ra => exact cause_rdr hcause h
    | kst ra idx => exact cause_kst hcause (hinv.regsFit ra) h
    | kld rd idx => exact cause_kld hcause (hinv.keyFits _) h
    | mva rd => exact (cause_of_exec h (exec_mva_of_fits rd hinv.accFits)).trans hcause
    | gcd rd ra rb =>
      exact (cause_of_exec h (exec_gcd_of_fits rd (hinv.regsFit ra) (hinv.regsFit rb))).trans hcause
    | inv rd rw rm => exact cause_inv hcause (hinv.regsFit rm) h
    | mulm rd ra rb rm => exact cause_mulm hcause (hinv.regsFit rm) h
    | aclr => exact (cause_of_exec h (exec_aclr s)).trans hcause
    | macb idx bit => exact cause_macb hcause h
    | rds => exact (cause_of_exec h rfl).trans hcause
    | clrf => exact cause_of_exec h rfl
    | rst => exact cause_of_exec h rfl
  · obtain ⟨t, ht, hent⟩ := illegalWordRaisesIllegalCmd s w rest e hs hcq he
    exact ⟨t, ht, hent.cause, hent.fcmd⟩
  · obtain ⟨k, rfl, hkey, hcap⟩ := (exec_effect h).exists_raise hs ht
    refine ⟨fun hkt hcode => ?_, fun hmax hcode => ?_⟩
    · exact absurd hkt (hkey (eq_keyRange_of_causeCode hcode)).ne
    · exact (hcap (eq_capacity_of_causeCode hcode)).resolve_left (not_not.2 hmax)

end Sys2Proof.Machine
end
